-- ==== Sys2Proof/Config.lean ====
section
/-! DEFINITION. Config.lean: what an implementation fixes, and the layout of a request.

`latency` is the parameter the spec leaves OPEN (00_scope.md R8, 93_implementation_defined.md U7): it has no body, so no
proof can see its value. The bit positions are the decoder's configuration that 92_eei_decisions.md D2 asks for. -/

namespace Sys2Proof.Config

/-- LATENCY: the whole number of instants from a request to its response, 0 meaning the same instant; one value for
all requests (00_scope.md R8, 70_reset_and_hazards.md R96). -/
opaque latency : Nat

/-- Lowest bit of the field `a` in a request (30_encoding.md R35). -/
def aLo : Nat := 0

/-- Lowest bit of the field `b` in a request (30_encoding.md R35). -/
def bLo : Nat := 64

/-- Lowest bit of the field `c` in a request (30_encoding.md R35). -/
def cLo : Nat := 128

/-- Lowest bit of the field `mode` in a request (30_encoding.md R35). -/
def modeLo : Nat := 192

end Sys2Proof.Config
end

