-- ==== Sys2Proof/Word.lean ====
section
/-! DEFINITION. Word.lean: the widths of the ports and of the datapath, and a request as its four fields. -/

namespace Sys2Proof

/-- An operand, the divisor or a result: 64 bits, read as signed (00_scope.md R5). -/
abbrev Word64 := BitVec 64

/-- The product, the quotient and the remainder: 128 bits, read as signed (00_scope.md R6). -/
abbrev Wide := BitVec 128

/-- The mode field: 32 bits, read as unsigned (00_scope.md R7). -/
abbrev ModeWord := BitVec 32

/-- A request on the port: 224 bits (30_encoding.md R35). -/
abbrev RequestWord := BitVec 224

/-- A response on the port: 66 bits (30_encoding.md R36). -/
abbrev ResponseWord := BitVec 66

/-- The status field of a response: 2 bits (30_encoding.md R42). -/
abbrev StatusCode := BitVec 2

/-- The four fields of one request (30_encoding.md R35), the snapshot the core captures (20_memory.md R28). -/
structure Request where
  a    : Word64
  b    : Word64
  c    : Word64
  mode : ModeWord
  deriving DecidableEq, Repr

end Sys2Proof
end

