-- ==== Sys2Proof/Syntax.lean ====
section
/-! DEFINITION. Syntax.lean: the nine variants of MULDIV, one constructor per row of spec/opcode_table.json. -/

namespace Sys2Proof

/-- A decoded request: the variant its mode field selects (30_encoding.md R38, R39) with its three full-width operands
(30_encoding.md R37). The default variant keeps the mode value that selected it. -/
inductive Instr where
  | muldivUp (a b c : Word64)
  | muldivDown (a b c : Word64)
  | muldivCeiling (a b c : Word64)
  | muldivFloor (a b c : Word64)
  | muldivHalfUp (a b c : Word64)
  | muldivHalfDown (a b c : Word64)
  | muldivHalfEven (a b c : Word64)
  | muldivUnnecessary (a b c : Word64)
  | muldivDefault (mode : ModeWord) (a b c : Word64)
  deriving DecidableEq, Repr

end Sys2Proof
end

