-- ==== Sys2Proof/WellFormed.lean ====
section
/-! DEFINITION. WellFormed.lean: which terms of Instr stand for a request.

Every value of every operand is legal (30_encoding.md R37, R41). The one check is on the default variant, which only an
unrecognised mode value selects (30_encoding.md R39, R40). -/

namespace Sys2Proof

/-- The mode value lies outside 0 to 7, that is `mode[31:3] != 0` (30_encoding.md R39). -/
def unrecognisedMode (mode : ModeWord) : Bool := 8 ≤ mode.toNat

/-- The instruction is one that some request encodes. -/
def Instr.wellFormed : Instr → Bool
  | .muldivUp _ _ _ => true
  | .muldivDown _ _ _ => true
  | .muldivCeiling _ _ _ => true
  | .muldivFloor _ _ _ => true
  | .muldivHalfUp _ _ _ => true
  | .muldivHalfDown _ _ _ => true
  | .muldivHalfEven _ _ _ => true
  | .muldivUnnecessary _ _ _ => true
  | .muldivDefault mode _ _ _ => unrecognisedMode mode

end Sys2Proof
end

