-- ==== Sys2Proof/Decode.lean ====
section
/-! DEFINITION. Decode.lean: the request format, the decoder and the encoder.

Every 224-bit request is legal (30_encoding.md R41), so `decode` never rejects. Only another length is rejected, by name
(30_encoding.md R44: there is one request length). -/

namespace Sys2Proof

/-- The four fields of a request word (30_encoding.md R35). -/
def unpack (w : RequestWord) : Request :=
  { a    := w.extractLsb' Config.aLo 64
    b    := w.extractLsb' Config.bLo 64
    c    := w.extractLsb' Config.cLo 64
    mode := w.extractLsb' Config.modeLo 32 }

/-- The variant that the mode field selects (30_encoding.md R39), with the operands as they stand (R37). -/
def decodeRequest (r : Request) : Instr :=
  match r.mode.toNat with
  | 0 => .muldivUp r.a r.b r.c
  | 1 => .muldivDown r.a r.b r.c
  | 2 => .muldivCeiling r.a r.b r.c
  | 3 => .muldivFloor r.a r.b r.c
  | 4 => .muldivHalfUp r.a r.b r.c
  | 5 => .muldivHalfDown r.a r.b r.c
  | 6 => .muldivHalfEven r.a r.b r.c
  | 7 => .muldivUnnecessary r.a r.b r.c
  | _ => .muldivDefault r.mode r.a r.b r.c

/-- The instruction of a request word; total, since every request is legal (30_encoding.md R41). -/
def decode (w : RequestWord) : Instr := decodeRequest (unpack w)

/-- Why bits are no request. -/
inductive DecodeReject where
  /-- The bits are not 224 in number (30_encoding.md R44). -/
  | wrongLength (nbits : Nat)
  deriving DecidableEq, Repr

/-- The decoder on `nbits` bits of any number: one length is a request (30_encoding.md R44), every other is rejected. -/
def decodeBits (nbits w : Nat) : Except DecodeReject Instr :=
  if nbits = 224 then .ok (decode (BitVec.ofNat 224 w)) else .error (.wrongLength nbits)

/-- A field's value placed at its lowest bit of a request. -/
def place {n : Nat} (lo : Nat) (v : BitVec n) : RequestWord := v.setWidth 224 <<< lo

/-- The request word of four fields (30_encoding.md R35: `req = {mode[31:0], c[63:0], b[63:0], a[63:0]}`). -/
def pack (r : Request) : RequestWord :=
  place Config.modeLo r.mode ||| place Config.cLo r.c ||| place Config.bLo r.b ||| place Config.aLo r.a

/-- The fields that encode an instruction: the mode values of 30_encoding.md R39 and the match column of the table. -/
def encodeRequest : Instr → Request
  | .muldivUp a b c => ⟨a, b, c, 0⟩
  | .muldivDown a b c => ⟨a, b, c, 1⟩
  | .muldivCeiling a b c => ⟨a, b, c, 2⟩
  | .muldivFloor a b c => ⟨a, b, c, 3⟩
  | .muldivHalfUp a b c => ⟨a, b, c, 4⟩
  | .muldivHalfDown a b c => ⟨a, b, c, 5⟩
  | .muldivHalfEven a b c => ⟨a, b, c, 6⟩
  | .muldivUnnecessary a b c => ⟨a, b, c, 7⟩
  | .muldivDefault mode a b c => ⟨a, b, c, mode⟩

/-- The request word that encodes an instruction. -/
def encode (i : Instr) : RequestWord := pack (encodeRequest i)

/-- The request that a word numbered as spec/opcode_table.json numbers it stands for.
DEDUCED (log entry 8): the table's bits 31 to 0 are the mode field (its match_field is `mode = req[223:192]`), so up to 32
bits are that field with every operand bit 0; more bits than the table gives a row are a request numbered as
30_encoding.md R35 numbers it. DESIGN CHOICE (log entry 8): bits of `w` above the 32 or 224 that are read are dropped, so
a word of more than 224 bits is read as its low 224 (30_encoding.md R44 gives no such request). -/
def tableRequest (nbits w : Nat) : Request :=
  if nbits ≤ 32 then ⟨0, 0, 0, BitVec.ofNat 32 w⟩ else unpack (BitVec.ofNat 224 w)

/-- What the decoder reads from a table word. DESIGN CHOICE (log entry 8): none for more bits than a request has
(30_encoding.md R44), where `tableRequest` alone would read the low 224. -/
def decodeTableWord (nbits w : Nat) : Option Instr :=
  match decodeBits (if nbits ≤ 224 then 224 else nbits) (pack (tableRequest nbits w)).toNat with
  | .ok i => some i
  | .error _ => none

end Sys2Proof
end

