-- ==== Sys2Proof/Machine/Operands.lean ====
section
/-! DEFINITION. Machine/Operands.lean: how the spec reads bit vectors, and its integer operators (00_scope.md R9 to R12).

Every operand is a whole field taken as it stands: there are no other operand forms (30_encoding.md R37). -/

namespace Sys2Proof.Machine

/-- `sval_N(v)`: the two's complement integer (00_scope.md R10). -/
abbrev sval {n : Nat} (v : BitVec n) : Int := v.toInt

/-- `uval_N(v)`: the unsigned integer (00_scope.md R10). -/
def uval {n : Nat} (v : BitVec n) : Nat := v.toNat

/-- `bits_N(i)`: the N-bit two's complement pattern of an integer (00_scope.md R11). -/
def bits (n : Nat) (i : Int) : BitVec n := BitVec.ofInt n i

/-- `sext_N(v)`: widening with copies of the sign bit (00_scope.md R11). -/
def sext {m : Nat} (n : Nat) (v : BitVec m) : BitVec n := v.signExtend n

/-- `zext_N(v)`: widening with zeros (00_scope.md R11). -/
def zext {m : Nat} (n : Nat) (v : BitVec m) : BitVec n := v.setWidth n

/-- `tdiv(x, y)`: the quotient rounded toward zero (00_scope.md R12). -/
def tdiv (x y : Int) : Int := Int.tdiv x y

/-- `trem(x, y)`: `x - y*tdiv(x, y)` (00_scope.md R12). -/
def trem (x y : Int) : Int := x - y * tdiv x y

/-- `asr1(c)`: arithmetic shift right by one (00_scope.md R12). -/
def asr1 (c : Word64) : Word64 := c.sshiftRight 1

/-- `odd(q)`: the low bit, whatever the sign (00_scope.md R12, 43_rounding.md R64). -/
def odd (q : Wide) : Int := if q.getLsbD 0 then 1 else 0

end Sys2Proof.Machine
end

