-- ==== Sys2Proof/Machine/State.lean ====
section
/-! DEFINITION. Machine/State.lean: what exists in the core between two instants, and what the host does to it.

The core holds no register, memory, flag or mode (10_state.md R16 to R23). Only the requests in flight exist between two
instants (10_state.md R25); beside them State holds the response on the outputs and the host's coming inputs. -/

namespace Sys2Proof.Machine

/-- The two errors of the core (60_exceptions.md R77). -/
inductive ErrorKind where
  /-- `mode = 7` and `R != 0`, with `c != 0` (60_exceptions.md R78). -/
  | roundingUnnecessaryViolation
  /-- `c = 0` (60_exceptions.md R79). -/
  | divideByZero
  deriving DecidableEq, Repr

/-- The outcome of one operation, a tagged union in which an error carries no value (00_scope.md R14). There is no
constructor for the status 3, which is never produced (30_encoding.md R42). -/
inductive Response where
  | ok (y : Word64)
  | err (kind : ErrorKind)
  deriving DecidableEq, Repr

/-- A request accepted and not yet answered: the four captured fields (10_state.md R25, 20_memory.md R28).
DESIGN CHOICE (log entry 3): `remaining` is the model's own count of the instants left before its response. -/
structure InFlight where
  req       : Request
  remaining : Nat
  deriving DecidableEq, Repr

/-- What the host does at one instant (60_exceptions.md R88). -/
inductive HostInput where
  /-- Nothing: no request and no reset. -/
  | quiet
  /-- A 224-bit request on the port (30_encoding.md R35). -/
  | issue (w : RequestWord)
  /-- The reset signal is asserted (70_reset_and_hazards.md R91). -/
  | reset
  deriving DecidableEq, Repr

/-- The machine between two instants. -/
structure State where
  /-- Requests accepted and not yet answered, oldest first (10_state.md R25). -/
  inFlight  : List InFlight
  /-- The response on the outputs, none when no response is presented (70_reset_and_hazards.md R92). -/
  presented : Option Response
  /-- What the host does at the coming instants; quiet after the end. DESIGN CHOICE (log entry 4): the model's own. -/
  inputs    : List HostInput
  deriving DecidableEq, Repr

/-- Faults are the CONSUMER's, raised by its reads of the outputs (Machine/Flags.lean). No step raises one: the core
answers every request (30_encoding.md R41) and an error is a response (60_exceptions.md R82). -/
inductive Fault where
  /-- Raised by `readStatus` and `readResult` when no response is presented: the lines are then unspecified, and
  "reading one is a fault of the consumer" (70_reset_and_hazards.md R92). Safe: the model gives no value. -/
  | noResponsePresented
  /-- Raised by `readResult` on an error response, which has no result (30_encoding.md R36,
  93_implementation_defined.md U4). Safe: the model gives no value. -/
  | errorHasNoResult
  deriving DecidableEq, Repr

/-- Refusals: none is raised, since every instruction has its meaning. -/
inductive Refusal where
  /-- Raised by an arm of exec whose instruction has no meaning yet; no arm raises it. Safe: the run stops. -/
  | notModelled (mnemonic : String)
  deriving DecidableEq, Repr

/-- The state with these requests in flight. -/
def State.setInFlight (s : State) (fs : List InFlight) : State := { s with inFlight := fs }

/-- The state with this on its outputs. -/
def State.setPresented (s : State) (r : Option Response) : State := { s with presented := r }

/-- The state with these host inputs to come. -/
def State.setInputs (s : State) (es : List HostInput) : State := { s with inputs := es }

/-- The machine right after reset: nothing in flight and no response presented (70_reset_and_hazards.md R90), and a host
that does nothing (DESIGN CHOICE, log entry 4). -/
def State.reset : State := { inFlight := [], presented := none, inputs := [] }

end Sys2Proof.Machine
end

