-- ==== Sys2Proof/Machine/Ops.lean ====
section
/-! DEFINITION. Machine/Ops.lean: the shared operations: the two arithmetic stages, the sequencer, the delivery of a
response (an error is one), and what reset, a request and the passing of an instant do to the requests in flight. -/

namespace Sys2Proof.Machine

/-- MUL128: the exact signed product (41_multiplier.md R53). -/
def mul128 (a b : Word64) : Wide := bits 128 (sval a * sval b)

/-- DIV128: the truncated quotient and the remainder (42_divider.md R57). It asks for a proof that the divisor is not
zero, so the stage has no case for `c = 0` (42_divider.md R59, 93_implementation_defined.md U2). -/
def div128 (p : Wide) (c : Word64) (_nonzero : sval c ≠ 0) : Wide × Wide :=
  let q := tdiv (sval p) (sval c)
  (bits 128 q, bits 128 (sval p - sval c * q))

/-- `H`: the threshold of the half modes (43_rounding.md R63). -/
def threshold (c : Word64) : Int := sval (asr1 c)

/-- `NH`: the mirrored threshold (43_rounding.md R63). -/
def negThreshold (c : Word64) : Int := -threshold c

/-- `pos`: the product is not negative (43_rounding.md R63). -/
def isPos (p : Wide) : Bool := 0 ≤ sval p

/-- What a variant does in the mux: from `P`, `Q`, `R` and `c` the adjusted quotient `q'`, an exact integer, or an error
(40_datapath.md R48, 43_rounding.md R65). -/
abbrev Adjust := (p q r : Wide) → (c : Word64) → Except ErrorKind Int

/-- `respond Ok(y)` with `y = bits_64` of the selected quotient (00_scope.md R13, 40_datapath.md R49). -/
def respondOk (q : Int) : Response := .ok (bits 64 q)

/-- `raise <Error>`: the whole effect of an error is its response; nothing is saved and no mode changes
(00_scope.md R13, 60_exceptions.md R77, R82). There is no return from it (60_exceptions.md R83). -/
def raise (kind : ErrorKind) : Response := .err kind

/-- The sequencer up to the narrowing: the divisor check, the exact path and the mux (40_datapath.md R45 to R48). The
result is the selected quotient (`Q` on the exact path, `q'` on the inexact one) or the error raised. -/
def select (adjust : Adjust) (a b c : Word64) : Except ErrorKind Int :=
  if nonzero : sval c = 0 then .error .divideByZero
  else
    let p := mul128 a b
    let qr := div128 p c nonzero
    if sval qr.2 = 0 then .ok (sval qr.1) else adjust p qr.1 qr.2 c

/-- MULDIV: the selected quotient is narrowed to the result, or the error is the response (40_datapath.md R45, R49). -/
def muldiv (adjust : Adjust) (a b c : Word64) : Response :=
  match select adjust a b c with
  | .ok q => respondOk q
  | .error kind => raise kind

/-- The response of the operation is put on the outputs as one value (20_memory.md R28, 60_exceptions.md R82). -/
def deliver (r : Response) (s : State) : Host.Outcome State Fault Refusal := .next (s.setPresented (some r))

/-- One instant passes for the requests in flight (log entry 3). -/
def age (fs : List InFlight) : List InFlight := fs.map fun f => { f with remaining := f.remaining - 1 }

/-- The core accepts a request: the four fields are captured together (20_memory.md R28), behind the requests already in
flight (70_reset_and_hazards.md R95), and the response is due after `latency` instants (70_reset_and_hazards.md R96). -/
def accept (latency : Nat) (w : RequestWord) (s : State) : State :=
  s.setInFlight (s.inFlight ++ [{ req := unpack w, remaining := latency }])

/-- Reset: every request in flight is discarded, and reset produces no response (70_reset_and_hazards.md R89, R91). -/
def discardAll (s : State) : State := (s.setInFlight []).setPresented none

end Sys2Proof.Machine
end

