-- ==== Sys2Proof/Machine/Rounding.lean ====
section
/-! DEFINITION. Machine/Rounding.lean: the rounding adjustment mux, one definition per variant (43_rounding.md). Each runs
on the inexact path only (40_datapath.md R48). -/

namespace Sys2Proof.Machine

/-- ROUND_UP (43_rounding.md R66). -/
def adjustUp : Adjust := fun p q _ _ => .ok (if isPos p then sval q + 1 else sval q - 1)

/-- ROUND_DOWN (43_rounding.md R67). -/
def adjustDown : Adjust := fun _ q _ _ => .ok (sval q)

/-- ROUND_CEILING (43_rounding.md R68). -/
def adjustCeiling : Adjust := fun p q _ _ => .ok (if isPos p then sval q + 1 else sval q)

/-- ROUND_FLOOR (43_rounding.md R69). -/
def adjustFloor : Adjust := fun p q _ _ => .ok (if isPos p then sval q else sval q - 1)

/-- ROUND_HALF_UP (43_rounding.md R70). -/
def adjustHalfUp : Adjust := fun p q r c =>
  .ok (if isPos p then
      if threshold c ≤ sval r then sval q + 1 else sval q
    else
      if sval r ≤ negThreshold c then sval q - 1 else sval q)

/-- ROUND_HALF_DOWN (43_rounding.md R71). -/
def adjustHalfDown : Adjust := fun p q r c =>
  .ok (if isPos p then
      if threshold c < sval r then sval q + 1 else sval q
    else
      if sval r < negThreshold c then sval q - 1 else sval q)

/-- ROUND_HALF_EVEN (43_rounding.md R72). -/
def adjustHalfEven : Adjust := fun p q r c =>
  .ok (if isPos p then
      if threshold c < sval r then sval q + 1
      else if sval r < threshold c then sval q
      else sval q + odd q
    else
      if sval r < negThreshold c then sval q - 1
      else if negThreshold c < sval r then sval q
      else sval q - odd q)

/-- ROUND_UNNECESSARY (43_rounding.md R73). -/
def adjustUnnecessary : Adjust := fun _ _ _ _ => .error .roundingUnnecessaryViolation

/-- The default of an unrecognised mode value, treated as ROUND_DOWN (43_rounding.md R75). -/
def adjustDefault : Adjust := fun _ q _ _ => .ok (sval q)

end Sys2Proof.Machine
end

