-- ==== Sys2Proof/Machine/Muldiv.lean ====
section
/-! DEFINITION. Machine/Muldiv.lean: the meanings of the nine variants. Each is MULDIV (40_datapath.md R45) with the
variant's own rule as its mux step. -/

namespace Sys2Proof.Machine

/-- MULDIV.UP (43_rounding.md R66). -/
def execMuldivUp (a b c : Word64) (s : State) : Host.Outcome State Fault Refusal :=
  deliver (muldiv adjustUp a b c) s

/-- MULDIV.DOWN (43_rounding.md R67). -/
def execMuldivDown (a b c : Word64) (s : State) : Host.Outcome State Fault Refusal :=
  deliver (muldiv adjustDown a b c) s

/-- MULDIV.CEILING (43_rounding.md R68). -/
def execMuldivCeiling (a b c : Word64) (s : State) : Host.Outcome State Fault Refusal :=
  deliver (muldiv adjustCeiling a b c) s

/-- MULDIV.FLOOR (43_rounding.md R69). -/
def execMuldivFloor (a b c : Word64) (s : State) : Host.Outcome State Fault Refusal :=
  deliver (muldiv adjustFloor a b c) s

/-- MULDIV.HALF_UP (43_rounding.md R70). -/
def execMuldivHalfUp (a b c : Word64) (s : State) : Host.Outcome State Fault Refusal :=
  deliver (muldiv adjustHalfUp a b c) s

/-- MULDIV.HALF_DOWN (43_rounding.md R71). -/
def execMuldivHalfDown (a b c : Word64) (s : State) : Host.Outcome State Fault Refusal :=
  deliver (muldiv adjustHalfDown a b c) s

/-- MULDIV.HALF_EVEN (43_rounding.md R72). -/
def execMuldivHalfEven (a b c : Word64) (s : State) : Host.Outcome State Fault Refusal :=
  deliver (muldiv adjustHalfEven a b c) s

/-- MULDIV.UNNECESSARY (43_rounding.md R73). -/
def execMuldivUnnecessary (a b c : Word64) (s : State) : Host.Outcome State Fault Refusal :=
  deliver (muldiv adjustUnnecessary a b c) s

/-- MULDIV.DEFAULT (43_rounding.md R75): the outcome does not depend on which unrecognised value selected it. -/
def execMuldivDefault (_mode : ModeWord) (a b c : Word64) (s : State) : Host.Outcome State Fault Refusal :=
  deliver (muldiv adjustDefault a b c) s

end Sys2Proof.Machine
end

