-- ==== Sys2Proof/Machine/Dispatch.lean ====
section
/-! DEFINITION. Machine/Dispatch.lean: the meaning of each instruction, one arm per row of spec/opcode_table.json. -/

namespace Sys2Proof.Machine

def exec (i : Instr) (s : State) : Host.Outcome State Fault Refusal :=
  match i with
  | .muldivUp a b c => Sys2Proof.Machine.execMuldivUp a b c s
  | .muldivDown a b c => Sys2Proof.Machine.execMuldivDown a b c s
  | .muldivCeiling a b c => Sys2Proof.Machine.execMuldivCeiling a b c s
  | .muldivFloor a b c => Sys2Proof.Machine.execMuldivFloor a b c s
  | .muldivHalfUp a b c => Sys2Proof.Machine.execMuldivHalfUp a b c s
  | .muldivHalfDown a b c => Sys2Proof.Machine.execMuldivHalfDown a b c s
  | .muldivHalfEven a b c => Sys2Proof.Machine.execMuldivHalfEven a b c s
  | .muldivUnnecessary a b c => Sys2Proof.Machine.execMuldivUnnecessary a b c s
  | .muldivDefault mode a b c => Sys2Proof.Machine.execMuldivDefault mode a b c s

end Sys2Proof.Machine
end

