-- ==== Sys2Proof/Machine/Instant.lean ====
section
/-! DEFINITION. Machine/Instant.lean: what happens at one instant, for any latency. One instant takes the host's next
input, then answers the oldest request in flight if its response is due (70_reset_and_hazards.md R91, R95, R96).

DEDUCED (log entries 1 and 2): a step is one instant, LATENCY is counted in instants, and an instant brings at most one
request. DESIGN CHOICE (log entry 6): a response is presented at the one instant it is due. DESIGN CHOICE (log
entry 18): under reset a request due at that very instant is discarded unanswered, as are the others in flight. -/

namespace Sys2Proof.Machine

/-- The host's input at this instant: quiet once the list has ended. -/
def nextInput (s : State) : HostInput :=
  match s.inputs with
  | [] => .quiet
  | e :: _ => e

/-- The instant begins: its input is taken off the list and the last response is no longer presented
(70_reset_and_hazards.md R92). -/
def beginInstant (s : State) : State := (s.setInputs s.inputs.tail).setPresented none

/-- The core answers the oldest request in flight if it is due, by running the instruction its captured fields decode to;
else the instant only passes. -/
def answer (s : State) : Host.Outcome State Fault Refusal :=
  match s.inFlight with
  | [] => .next s
  | f :: fs =>
    if f.remaining = 0 then exec (decodeRequest f.req) (s.setInFlight (age fs))
    else .next (s.setInFlight (age (f :: fs)))

/-- One instant of a core whose latency is given. Under reset what is in flight is discarded (70_reset_and_hazards.md R91).
DESIGN CHOICE (log entry 18): so is a request due at this very instant, which R91 does not say is answered or not. -/
def instant (latency : Nat) (s : State) : Host.Outcome State Fault Refusal :=
  match nextInput s with
  | .reset => .next (discardAll (beginInstant s))
  | .issue w => answer (accept latency w (beginInstant s))
  | .quiet => answer (beginInstant s)

/-- The captured request becomes the oldest one in flight, due at once. -/
def placeFirst (r : Request) (s : State) : State :=
  (s.setInFlight ({ req := r, remaining := 0 } :: s.inFlight)).setInputs (.quiet :: s.inputs)

end Sys2Proof.Machine
end

