-- ==== Sys2Proof/Machine/Step.lean ====
section
/-! DEFINITION. Machine/Step.lean: one step of the core is one instant at its own latency, and how a word of the opcode
table is placed where the next step takes its request from. -/

namespace Sys2Proof.Machine

/-- One step: an instant of a core whose latency is the OPEN parameter (00_scope.md R8). -/
def step (s : State) : Host.Outcome State Fault Refusal := instant Config.latency s

/-- The state in which the next step runs the request of a table word: it is the oldest request in flight and due, and
the host is quiet at that instant (log entry 9). DESIGN CHOICE (log entry 8): of a word of more than 224 bits the low 224
are placed, although `decodeTableWord` rejects it. -/
def State.withFetchWord (s : State) (nbits w : Nat) : State := placeFirst (tableRequest nbits w) s

end Sys2Proof.Machine
end

