-- ==== Sys2Proof/Machine/Assembler.lean ====
section
/-! DEFINITION. Machine/Assembler.lean: the spec's one-line syntax for a request and for a response (30_encoding.md R43).
DESIGN CHOICE (log entry 14): a text is a list of characters; where blanks may stand, the case of hexadecimal digits,
comments, the radix of the raw form's mode, signs, and the form in which a disassembler prints the operands. -/

namespace Sys2Proof.Machine

/-- An operand as written: a signed decimal integer, or a `0x`-prefixed pattern (30_encoding.md R43). -/
inductive AsmOperand where
  | dec (value : Int)
  | hex (pattern : Nat)
  deriving DecidableEq, Repr

/-- One line: the named form, whose mode is one of the eight of 30_encoding.md R39, or the raw form (30_encoding.md R43). -/
inductive AsmLine where
  | named (mode : Fin 8) (a b c : AsmOperand)
  | raw (mode : Nat) (a b c : AsmOperand)
  deriving DecidableEq, Repr

/-- The 64-bit value of an operand: decimal in `[-2^63, 2^63-1]`, hexadecimal up to 64 bits (30_encoding.md R43). -/
def operandValue : AsmOperand → Option Word64
  | .dec v => if -2 ^ 63 ≤ v ∧ v ≤ 2 ^ 63 - 1 then some (BitVec.ofInt 64 v) else none
  | .hex p => if p < 2 ^ 64 then some (BitVec.ofNat 64 p) else none

/-- The mode value of a line: any of 0 to 4294967295 in the raw form (30_encoding.md R43). -/
def modeValue : AsmLine → Option ModeWord
  | .named m _ _ _ => some (BitVec.ofNat 32 m.val)
  | .raw m _ _ _ => if m < 2 ^ 32 then some (BitVec.ofNat 32 m) else none

/-- The three operands of a line as written. -/
def lineOperands : AsmLine → AsmOperand × AsmOperand × AsmOperand
  | .named _ a b c => (a, b, c)
  | .raw _ a b c => (a, b, c)

/-- The request a line stands for; none where a number is out of its range. -/
def assemble (l : AsmLine) : Option Request :=
  match modeValue l, operandValue (lineOperands l).1, operandValue (lineOperands l).2.1, operandValue (lineOperands l).2.2 with
  | some mode, some a, some b, some c => some { a := a, b := b, c := c, mode := mode }
  | _, _, _, _ => none

/-- The line a disassembler prints: the named form for the modes 0 to 7, else the raw form (30_encoding.md R43).
DESIGN CHOICE (log entry 14): operands are printed as signed decimal integers; R43 allows decimal or hexadecimal and does
not say which a disassembler uses. -/
def disassemble (r : Request) : AsmLine :=
  if h : r.mode.toNat < 8 then .named ⟨r.mode.toNat, h⟩ (.dec r.a.toInt) (.dec r.b.toInt) (.dec r.c.toInt)
  else .raw r.mode.toNat (.dec r.a.toInt) (.dec r.b.toInt) (.dec r.c.toInt)

/-- The names of the eight modes (30_encoding.md R43), as characters. -/
def modeName : Fin 8 → List Char
  | 0 => ['U', 'P']
  | 1 => ['D', 'O', 'W', 'N']
  | 2 => ['C', 'E', 'I', 'L', 'I', 'N', 'G']
  | 3 => ['F', 'L', 'O', 'O', 'R']
  | 4 => ['H', 'A', 'L', 'F', '_', 'U', 'P']
  | 5 => ['H', 'A', 'L', 'F', '_', 'D', 'O', 'W', 'N']
  | 6 => ['H', 'A', 'L', 'F', '_', 'E', 'V', 'E', 'N']
  | 7 => ['U', 'N', 'N', 'E', 'C', 'E', 'S', 'S', 'A', 'R', 'Y']

/-- The mnemonic. -/
def mnemonicText : List Char := ['M', 'U', 'L', 'D', 'I', 'V']

/-- A signed decimal integer. DESIGN CHOICE (log entry 14): no `+` before one that is not negative. -/
def printInt : Int → List Char
  | .ofNat n => Nat.toDigits 10 n
  | .negSucc n => '-' :: Nat.toDigits 10 (n + 1)

/-- The hexadecimal digits of a 64-bit pattern. DESIGN CHOICE (log entry 14): sixteen of them, in lower case. -/
def printHex (p : Nat) : List Char :=
  let ds := Nat.toDigits 16 p
  List.replicate (16 - ds.length) '0' ++ ds

/-- An operand as text. -/
def printOperand : AsmOperand → List Char
  | .dec v => printInt v
  | .hex p => '0' :: 'x' :: printHex p

/-- The mode of a line as text, after the mnemonic. DESIGN CHOICE (log entry 14): the raw form's mode is printed in
decimal. -/
def printMode : AsmLine → List Char
  | .named m _ _ _ => '.' :: modeName m
  | .raw m _ _ _ => ' ' :: '#' :: Nat.toDigits 10 m ++ [',']

/-- A line as text (30_encoding.md R43). -/
def printLine (l : AsmLine) : List Char :=
  mnemonicText ++ printMode l ++ ' ' :: printOperand (lineOperands l).1 ++ ',' :: ' ' ::
    printOperand (lineOperands l).2.1 ++ ',' :: ' ' :: printOperand (lineOperands l).2.2

/-- The name of an error as text (30_encoding.md R43). -/
def errorName : ErrorKind → List Char
  | .roundingUnnecessaryViolation => "RoundingUnnecessaryViolation".toList
  | .divideByZero => "DivideByZero".toList

/-- A response as text (30_encoding.md R43). -/
def printResponse : Response → List Char
  | .ok y => ['O', 'k', '('] ++ printInt y.toInt ++ [')']
  | .err kind => ['E', 'r', 'r', '('] ++ errorName kind ++ [')']

/-- The text after its leading blanks. -/
def skipBlanks (cs : List Char) : List Char := cs.dropWhile (· == ' ')

/-- The text after a given beginning. -/
def skipText : List Char → List Char → Option (List Char)
  | [], cs => some cs
  | _ :: _, [] => none
  | x :: xs, y :: ys => if x = y then skipText xs ys else none

/-- The value of a digit in a base of at most 16, either case. -/
def digitValue (base : Nat) (ch : Char) : Option Nat :=
  let n := ch.toNat
  let v := if 48 ≤ n ∧ n ≤ 57 then n - 48
    else if 65 ≤ n ∧ n ≤ 70 then n - 55
    else if 97 ≤ n ∧ n ≤ 102 then n - 87
    else 16
  if v < base then some v else none

/-- Reads further digits of a number. -/
def readDigits (base acc : Nat) : List Char → Nat × List Char
  | [] => (acc, [])
  | ch :: cs =>
    match digitValue base ch with
    | some d => readDigits base (acc * base + d) cs
    | none => (acc, ch :: cs)

/-- Reads a number of one digit or more. -/
def readNat (base : Nat) : List Char → Option (Nat × List Char)
  | [] => none
  | ch :: cs => (digitValue base ch).map fun d => readDigits base d cs

/-- Reads an operand. DESIGN CHOICE (log entry 14): a signed decimal bears `-` or no sign; a `+` is not taken. -/
def readOperand : List Char → Option (AsmOperand × List Char)
  | '0' :: 'x' :: cs => (readNat 16 cs).map fun r => (.hex r.1, r.2)
  | '-' :: cs => (readNat 10 cs).map fun r => (.dec (-(r.1 : Int)), r.2)
  | cs => (readNat 10 cs).map fun r => (.dec r.1, r.2)

/-- Reads an operand between blanks. -/
def readPadded (cs : List Char) : Option (AsmOperand × List Char) :=
  (readOperand (skipBlanks cs)).map fun r => (r.1, skipBlanks r.2)

/-- Reads a comma. -/
def readComma : List Char → Option (List Char)
  | ',' :: cs => some cs
  | _ => none

/-- The line ends, or a comment begins. -/
def atEnd : List Char → Bool
  | [] => true
  | ch :: _ => ch == ';'

/-- Reads the three operands of a line. -/
def readOperands (cs : List Char) : Option (AsmOperand × AsmOperand × AsmOperand) := do
  let (a, cs) ← readPadded cs
  let cs ← readComma cs
  let (b, cs) ← readPadded cs
  let cs ← readComma cs
  let (c, cs) ← readPadded cs
  if atEnd cs then some (a, b, c) else none

/-- Reads the name of a mode and the blank after it. -/
def readModeName (cs : List Char) : Option (Fin 8 × List Char) :=
  (List.finRange 8).findSome? fun m => (skipText (modeName m ++ [' ']) cs).map fun rest => (m, rest)

/-- Reads the raw form's mode and the comma after it. DESIGN CHOICE (log entry 14): the mode is read in decimal only;
30_encoding.md R43 gives its range and no radix. -/
def readRawMode (cs : List Char) : Option (Nat × List Char) := do
  let cs ← skipText ['#'] (skipBlanks cs)
  let (m, cs) ← readNat 10 cs
  let cs ← readComma (skipBlanks cs)
  some (m, cs)

/-- The line a text spells, if it spells one (30_encoding.md R43). -/
def parseLine (text : List Char) : Option AsmLine := do
  let cs ← skipText mnemonicText (skipBlanks text)
  match cs with
  | '.' :: cs =>
    let (m, cs) ← readModeName cs
    let (a, b, c) ← readOperands cs
    some (.named m a b c)
  | ' ' :: cs =>
    let (m, cs) ← readRawMode cs
    let (a, b, c) ← readOperands cs
    some (.raw m a b c)
  | _ => none

end Sys2Proof.Machine
end

