-- ==== Sys2Proof/Machine/Flags.lean ====
section
/-! DEFINITION. Machine/Flags.lean: the status of a response, its word on the port, and the consumer's reads of it.

The core has no flags (10_state.md R19); the status field of each response is the only status there is. -/

namespace Sys2Proof.Machine

/-- The code of an error (30_encoding.md R42, 60_exceptions.md R77). -/
def ErrorKind.code : ErrorKind → StatusCode
  | .roundingUnnecessaryViolation => 1
  | .divideByZero => 2

/-- The status field of a response (30_encoding.md R42). -/
def Response.status : Response → StatusCode
  | .ok _ => 0
  | .err kind => kind.code

/-- The `y` field of a response: the result, or the filler of all zeros under an error (30_encoding.md R36). -/
def Response.yField : Response → Word64
  | .ok y => y
  | .err _ => 0

/-- `rsp = {status[1:0], y[63:0]}` (30_encoding.md R36). -/
def encodeResponse (r : Response) : ResponseWord := r.status ++ r.yField

/-- What a consumer makes of a response word: `y` is read only when the status is 0, and the status 3 is no response of
this core (30_encoding.md R36, R42). -/
def decodeResponse (w : ResponseWord) : Option Response :=
  match (w.extractLsb' 64 2).toNat with
  | 0 => some (.ok (w.extractLsb' 0 64))
  | 1 => some (.err .roundingUnnecessaryViolation)
  | 2 => some (.err .divideByZero)
  | _ => none

/-- The consumer reads the status: only together with a response (70_reset_and_hazards.md R92). -/
def readStatus (s : State) : Except Fault StatusCode :=
  match s.presented with
  | none => .error .noResponsePresented
  | some r => .ok r.status

/-- The consumer reads the result: only when a response is presented (70_reset_and_hazards.md R92) and its status is 0
(30_encoding.md R36). -/
def readResult (s : State) : Except Fault Word64 :=
  match s.presented with
  | none => .error .noResponsePresented
  | some (.err _) => .error .errorHasNoResult
  | some (.ok y) => .ok y

end Sys2Proof.Machine
end

