-- ==== Sys2Proof/Machine/Instances.lean ====
section
/-! DEFINITION. Machine/Instances.lean: any number of core instances side by side (60_exceptions.md R87). They have no
identifiers of their own.

DESIGN CHOICE (log entry 12): several instances are a list, one of them steps at a time, and the position in the list is
the observer's. -/

namespace Sys2Proof.Machine

/-- One instance of a list makes a step; none where there is no such instance, or its step does not go on (the
model's choice, log entry 12). -/
def stepInstance (k : Nat) (cores : List State) : Option (List State) :=
  match cores[k]? with
  | none => none
  | some s =>
    match step s with
    | .next t => some (cores.set k t)
    | .fault _ => none
    | .refused _ => none

end Sys2Proof.Machine
end

