-- ==== Sys2Proof/Safety.lean ====
section
/-! DEFINITION. Safety.lean: the terms that claims about this core use: the caller's contract, the order of the requests
in flight, and the responses presented over a run. -/

namespace Sys2Proof.Machine

/-- The quotient an instruction selects before the narrowing, or the error it raises (40_datapath.md R45 to R48). -/
def selected : Instr → Except ErrorKind Int
  | .muldivUp a b c => select adjustUp a b c
  | .muldivDown a b c => select adjustDown a b c
  | .muldivCeiling a b c => select adjustCeiling a b c
  | .muldivFloor a b c => select adjustFloor a b c
  | .muldivHalfUp a b c => select adjustHalfUp a b c
  | .muldivHalfDown a b c => select adjustHalfDown a b c
  | .muldivHalfEven a b c => select adjustHalfEven a b c
  | .muldivUnnecessary a b c => select adjustUnnecessary a b c
  | .muldivDefault _ a b c => select adjustDefault a b c

/-- `InRange(a, b, c, mode)`: the selected quotient fits in 64 bits (40_datapath.md R50). DESIGN CHOICE (log entry 19): it
holds of a request that selects none (`c = 0`, or mode 7 with an inexact division), of which R50 says nothing. -/
def InRange (r : Request) : Prop :=
  ∀ q, selected (decodeRequest r) = .ok q → -2 ^ 63 ≤ q ∧ q ≤ 2 ^ 63 - 1

/-- The response a request gets when it is served alone, right after reset (20_memory.md R31). -/
def outcomeAlone (r : Request) : Option Response :=
  match exec (decodeRequest r) State.reset with
  | .next t => t.presented
  | .fault _ => none
  | .refused _ => none

/-- The requests in flight are due at different instants, the oldest first, each within the latency
(70_reset_and_hazards.md R95, R96). -/
def Scheduled (latency : Nat) (s : State) : Prop :=
  s.inFlight.Pairwise (fun f g => f.remaining < g.remaining) ∧ ∀ f ∈ s.inFlight, f.remaining < latency

/-- What the outputs present at each of the next `n` instants. -/
def outputs (latency : Nat) : Nat → State → List (Option Response)
  | 0, _ => []
  | n + 1, s =>
    match instant latency s with
    | .next t => t.presented :: outputs latency n t
    | .fault _ => []
    | .refused _ => []

/-- The oldest of these requests, if it is due. -/
def dueHead (fs : List InFlight) : Option Request :=
  match fs with
  | [] => none
  | f :: _ => if f.remaining = 0 then some f.req else none

/-- The request whose response is due at the coming instant (70_reset_and_hazards.md R95, R96). DESIGN CHOICE
(log entry 18): none under reset, a request due at that very instant included. -/
def dueRequest (latency : Nat) (s : State) : Option Request :=
  match nextInput s with
  | .reset => none
  | .issue w => dueHead (s.inFlight ++ [{ req := unpack w, remaining := latency }])
  | .quiet => dueHead s.inFlight

/-- What an input asks for: the response of the request it issues, or no response. -/
def requested : HostInput → Option Response
  | .quiet => none
  | .issue w => outcomeAlone (unpack w)
  | .reset => none

/-- The caller keeps its duty `c != 0` (40_datapath.md R50) in every request in flight and to come, and the outputs show
no `DivideByZero` (60_exceptions.md R79). -/
def CallerNeverDividesByZero (s : State) : Prop :=
  (∀ f ∈ s.inFlight, f.req.c ≠ 0) ∧ (∀ w, .issue w ∈ s.inputs → (unpack w).c ≠ 0) ∧
    s.presented ≠ some (.err .divideByZero)

end Sys2Proof.Machine
end

