-- ==== Sys2Proof/Certificates/Slice0/Obligations.lean ====
section
/-! DEFINITION. Certificates/Slice0/Obligations.lean: the statements for the provers.

The arithmetic of a statement is on the integers that the operand fields stand for: `*`, `Int.tdiv` (rounded toward
zero), `Int.tmod` (its remainder) and `/ 2` (rounded toward minus infinity). It names no width and none of the model's
datapath functions, except where the statement is about one of them. -/

namespace Sys2Proof.Claims

open Sys2Proof.Machine

/-- The response `Ok` with the low 64 bits of an integer. -/
def narrowed (q : Int) : Response := .ok (BitVec.ofInt 64 q)

/-- The outcomes every variant shares (40_datapath.md section 2): the divisor check, then the exact path, then what the
variant answers on the inexact path. -/
def reply (p c : Int) (inexact : Response) : Response :=
  if c = 0 then .err .divideByZero else if p.tmod c = 0 then narrowed (p.tdiv c) else inexact

/-- The instruction, run in any state, goes on to the same state with this response presented. -/
def Gives (i : Instr) (r : Response) : Prop := ∀ s : State, exec i s = .next { s with presented := some r }

/-- The product of the operands as integers. -/
def prod (a b : Word64) : Int := a.toInt * b.toInt

/-- The operation is on the inexact path. -/
abbrev Inexact (a b c : Word64) : Prop := c.toInt ≠ 0 ∧ (prod a b).tmod c.toInt ≠ 0

end Sys2Proof.Claims

open Sys2Proof Sys2Proof.Machine Sys2Proof.Claims

/-! ### The nine variants: every request, the encoding, the direction, the corner cases of the rule -/

/-- R66, MULDIV.UP: the mux adds the sign of the product; for `c > 0` that is away from zero. -/
def Obligations.UpAddsTheSignOfTheProduct : Prop :=
  (∀ (a b c : Word64) (s : State), exec (.muldivUp a b c) s = .next { s with presented := some (reply (prod a b) c.toInt
    (narrowed (if 0 ≤ prod a b then (prod a b).tdiv c.toInt + 1 else (prod a b).tdiv c.toInt - 1))) }) ∧
  (∀ w : RequestWord, w.extractLsb' 192 32 = 0 →
    decode w = .muldivUp (w.extractLsb' 0 64) (w.extractLsb' 64 64) (w.extractLsb' 128 64)) ∧
  (∀ a b c : Word64, Inexact a b c → 0 < c.toInt → ∃ q, selected (.muldivUp a b c) = .ok q ∧
    (0 < prod a b → (q - 1) * c.toInt < prod a b ∧ prod a b < q * c.toInt) ∧
    (prod a b < 0 → q * c.toInt < prod a b ∧ prod a b < (q + 1) * c.toInt)) ∧
  Gives (.muldivUp 7 3 (-2)) (.ok (-9)) ∧ Gives (.muldivUp 7 3 2) (.ok 11) ∧ Gives (.muldivUp (-7) 3 2) (.ok (-11))

/-- R67, MULDIV.DOWN: the truncated quotient, for every sign of the product and the divisor. -/
def Obligations.DownKeepsTheTruncatedQuotient : Prop :=
  (∀ (a b c : Word64) (s : State), exec (.muldivDown a b c) s = .next { s with presented := some (reply (prod a b) c.toInt
    (narrowed ((prod a b).tdiv c.toInt))) }) ∧
  (∀ w : RequestWord, w.extractLsb' 192 32 = 1 →
    decode w = .muldivDown (w.extractLsb' 0 64) (w.extractLsb' 64 64) (w.extractLsb' 128 64)) ∧
  (∀ a b c : Word64, c.toInt ≠ 0 → ∃ q, selected (.muldivDown a b c) = .ok q ∧
    q.natAbs * c.toInt.natAbs ≤ (prod a b).natAbs ∧ (prod a b).natAbs < (q.natAbs + 1) * c.toInt.natAbs ∧
    0 ≤ q * c.toInt * prod a b) ∧
  Gives (.muldivDown 7 3 2) (.ok 10) ∧ Gives (.muldivDown (-7) 3 2) (.ok (-10))

/-- R68, MULDIV.CEILING: one above the truncated quotient of a positive product; for `c > 0` toward plus infinity; for
every divisor it is FLOOR plus one on the inexact path and equal to it on the exact one. -/
def Obligations.CeilingAddsOneToPositiveProducts : Prop :=
  (∀ (a b c : Word64) (s : State), exec (.muldivCeiling a b c) s = .next { s with presented := some (reply (prod a b) c.toInt
    (narrowed (if 0 ≤ prod a b then (prod a b).tdiv c.toInt + 1 else (prod a b).tdiv c.toInt))) }) ∧
  (∀ w : RequestWord, w.extractLsb' 192 32 = 2 →
    decode w = .muldivCeiling (w.extractLsb' 0 64) (w.extractLsb' 64 64) (w.extractLsb' 128 64)) ∧
  (∀ a b c : Word64, Inexact a b c → 0 < c.toInt → ∃ q, selected (.muldivCeiling a b c) = .ok q ∧
    (q - 1) * c.toInt < prod a b ∧ prod a b < q * c.toInt) ∧
  (∀ a b c : Word64, c.toInt ≠ 0 → ∃ q f, selected (.muldivCeiling a b c) = .ok q ∧ selected (.muldivFloor a b c) = .ok f ∧
    q - f = if (prod a b).tmod c.toInt = 0 then 0 else 1) ∧
  Gives (.muldivCeiling 7 3 (-2)) (.ok (-9)) ∧ Gives (.muldivCeiling (-7) 3 (-2)) (.ok 10) ∧
  Gives (.muldivCeiling 7 3 2) (.ok 11) ∧ Gives (.muldivCeiling (-7) 3 2) (.ok (-10))

/-- R69, MULDIV.FLOOR: one below the truncated quotient of a negative product; for `c > 0` toward minus infinity. -/
def Obligations.FloorTakesOneFromNegativeProducts : Prop :=
  (∀ (a b c : Word64) (s : State), exec (.muldivFloor a b c) s = .next { s with presented := some (reply (prod a b) c.toInt
    (narrowed (if 0 ≤ prod a b then (prod a b).tdiv c.toInt else (prod a b).tdiv c.toInt - 1))) }) ∧
  (∀ w : RequestWord, w.extractLsb' 192 32 = 3 →
    decode w = .muldivFloor (w.extractLsb' 0 64) (w.extractLsb' 64 64) (w.extractLsb' 128 64)) ∧
  (∀ a b c : Word64, Inexact a b c → 0 < c.toInt → ∃ q, selected (.muldivFloor a b c) = .ok q ∧
    q * c.toInt < prod a b ∧ prod a b < (q + 1) * c.toInt) ∧
  Gives (.muldivFloor 7 3 (-2)) (.ok (-10)) ∧ Gives (.muldivFloor (-7) 3 (-2)) (.ok 9) ∧
  Gives (.muldivFloor (-7) 3 2) (.ok (-11)) ∧ Gives (.muldivFloor 7 3 2) (.ok 10)

/-- R70, MULDIV.HALF_UP: a remainder at the threshold or beyond it moves the quotient by one; with a negative divisor every
positive product increments. -/
def Obligations.HalfUpMovesAtTheThreshold : Prop :=
  (∀ (a b c : Word64) (s : State), exec (.muldivHalfUp a b c) s = .next { s with presented := some (reply (prod a b) c.toInt
    (narrowed (if 0 ≤ prod a b then
      (if c.toInt / 2 ≤ (prod a b).tmod c.toInt then (prod a b).tdiv c.toInt + 1 else (prod a b).tdiv c.toInt)
    else
      (if (prod a b).tmod c.toInt ≤ -(c.toInt / 2) then (prod a b).tdiv c.toInt - 1 else (prod a b).tdiv c.toInt)))) }) ∧
  (∀ w : RequestWord, w.extractLsb' 192 32 = 4 →
    decode w = .muldivHalfUp (w.extractLsb' 0 64) (w.extractLsb' 64 64) (w.extractLsb' 128 64)) ∧
  (∀ a b c : Word64, Inexact a b c → c.toInt < 0 → 0 < prod a b →
    selected (.muldivHalfUp a b c) = .ok ((prod a b).tdiv c.toInt + 1)) ∧
  Gives (.muldivHalfUp 1 1 3) (.ok 1) ∧ Gives (.muldivHalfUp 2 1 5) (.ok 1) ∧ Gives (.muldivHalfUp (-1) 1 3) (.ok (-1)) ∧
  Gives (.muldivHalfUp 7 3 (-2)) (.ok (-9)) ∧ Gives (.muldivHalfUp 7 3 2) (.ok 11)

/-- R71, MULDIV.HALF_DOWN: only a remainder beyond the threshold moves the quotient. -/
def Obligations.HalfDownMovesBeyondTheThreshold : Prop :=
  (∀ (a b c : Word64) (s : State), exec (.muldivHalfDown a b c) s = .next { s with presented := some (reply (prod a b) c.toInt
    (narrowed (if 0 ≤ prod a b then
      (if c.toInt / 2 < (prod a b).tmod c.toInt then (prod a b).tdiv c.toInt + 1 else (prod a b).tdiv c.toInt)
    else
      (if (prod a b).tmod c.toInt < -(c.toInt / 2) then (prod a b).tdiv c.toInt - 1 else (prod a b).tdiv c.toInt)))) }) ∧
  (∀ w : RequestWord, w.extractLsb' 192 32 = 5 →
    decode w = .muldivHalfDown (w.extractLsb' 0 64) (w.extractLsb' 64 64) (w.extractLsb' 128 64)) ∧
  Gives (.muldivHalfDown 7 3 2) (.ok 10) ∧ Gives (.muldivHalfDown (-7) 3 2) (.ok (-10)) ∧
  Gives (.muldivHalfDown 1 1 3) (.ok 0) ∧ Gives (.muldivHalfDown 2 1 3) (.ok 1) ∧
  Gives (.muldivHalfDown 1 1 (-3)) (.ok 1) ∧ Gives (.muldivHalfDown 5 3 2) (.ok 7)

/-- R72, MULDIV.HALF_EVEN: at the threshold an odd quotient moves by one and an even one stays, so the selected quotient is
even whenever the remainder sits exactly there. -/
def Obligations.HalfEvenMovesOddQuotientsAtTheThreshold : Prop :=
  (∀ (a b c : Word64) (s : State), exec (.muldivHalfEven a b c) s = .next { s with presented := some (reply (prod a b) c.toInt
    (narrowed (if 0 ≤ prod a b then
      (if c.toInt / 2 < (prod a b).tmod c.toInt then (prod a b).tdiv c.toInt + 1
       else if (prod a b).tmod c.toInt < c.toInt / 2 then (prod a b).tdiv c.toInt
       else (prod a b).tdiv c.toInt + (prod a b).tdiv c.toInt % 2)
    else
      (if (prod a b).tmod c.toInt < -(c.toInt / 2) then (prod a b).tdiv c.toInt - 1
       else if -(c.toInt / 2) < (prod a b).tmod c.toInt then (prod a b).tdiv c.toInt
       else (prod a b).tdiv c.toInt - (prod a b).tdiv c.toInt % 2)))) }) ∧
  (∀ w : RequestWord, w.extractLsb' 192 32 = 6 →
    decode w = .muldivHalfEven (w.extractLsb' 0 64) (w.extractLsb' 64 64) (w.extractLsb' 128 64)) ∧
  (∀ a b c : Word64, Inexact a b c →
    (prod a b).tmod c.toInt = (if 0 ≤ prod a b then c.toInt / 2 else -(c.toInt / 2)) →
    ∃ q, selected (.muldivHalfEven a b c) = .ok q ∧ q % 2 = 0 ∧
      ((prod a b).tdiv c.toInt % 2 = 0 → q = (prod a b).tdiv c.toInt)) ∧
  Gives (.muldivHalfEven 5 1 2) (.ok 2) ∧ Gives (.muldivHalfEven 3 1 2) (.ok 2) ∧ Gives (.muldivHalfEven (-3) 1 2) (.ok (-2)) ∧
  Gives (.muldivHalfEven 1 1 3) (.ok 0) ∧ Gives (.muldivHalfEven 4 1 3) (.ok 2) ∧ Gives (.muldivHalfEven 7 3 2) (.ok 10)

/-- R73, MULDIV.UNNECESSARY: the quotient of an exact division, `RoundingUnnecessaryViolation` on every inexact one. -/
def Obligations.UnnecessaryRaisesOnEveryInexactDivision : Prop :=
  (∀ (a b c : Word64) (s : State), exec (.muldivUnnecessary a b c) s = .next { s with presented := some (reply (prod a b) c.toInt
    (.err .roundingUnnecessaryViolation)) }) ∧
  (∀ w : RequestWord, w.extractLsb' 192 32 = 7 →
    decode w = .muldivUnnecessary (w.extractLsb' 0 64) (w.extractLsb' 64 64) (w.extractLsb' 128 64)) ∧
  (∀ b c : Word64, c ≠ 0 → Gives (.muldivUnnecessary 0 b c) (.ok 0)) ∧
  (∀ a b : Word64, Gives (.muldivUnnecessary a b 0) (.err .divideByZero)) ∧
  Gives (.muldivUnnecessary 5 5 5) (.ok 5) ∧ Gives (.muldivUnnecessary 7 3 2) (.err .roundingUnnecessaryViolation)

/-- R75, MULDIV.DEFAULT: every unrecognised mode value gives the outcome of DOWN, a zero divisor included. -/
def Obligations.DefaultAnswersAsDown : Prop :=
  (∀ (m : ModeWord) (a b c : Word64) (s : State), exec (.muldivDefault m a b c) s = .next { s with presented := some (reply (prod a b) c.toInt
    (narrowed ((prod a b).tdiv c.toInt))) }) ∧
  (∀ (m : ModeWord) (a b c : Word64) (s : State), exec (.muldivDefault m a b c) s = exec (.muldivDown a b c) s) ∧
  (∀ w : RequestWord, w.extractLsb' 195 29 ≠ 0 → decode w =
    .muldivDefault (w.extractLsb' 192 32) (w.extractLsb' 0 64) (w.extractLsb' 64 64) (w.extractLsb' 128 64)) ∧
  Gives (.muldivDefault 8 7 3 2) (.ok 10) ∧ Gives (.muldivDefault 4294967295 (-7) 3 2) (.ok (-10))

/-! ### The encoding -/

/-- R35: the four fields of a request word, and the word of four fields. -/
def Obligations.RequestFieldsSitWhereTheFormatPutsThem : Prop :=
  (∀ w : RequestWord, unpack w =
    ⟨w.extractLsb' 0 64, w.extractLsb' 64 64, w.extractLsb' 128 64, w.extractLsb' 192 32⟩) ∧
  (∀ r : Request, pack r = r.mode ++ r.c ++ r.b ++ r.a)

/-- Decoding the encoding of a well-formed instruction gives it back, at every value of every operand and of the mode. -/
def Obligations.DecodeOfEncodeIsTheInstruction : Prop :=
  ∀ i : Instr, i.wellFormed = true → decode (encode i) = i

/-- R41: every request word is legal: it decodes to a well-formed instruction that encodes back to that word, and the
core answers it with a response whatever its state. -/
def Obligations.EveryRequestWordIsLegal : Prop :=
  ∀ w : RequestWord, (decode w).wellFormed = true ∧ encode (decode w) = w ∧
    ∀ s : State, ∃ r, exec (decode w) s = .next { s with presented := some r }

/-- R39: which variant each value of the mode field selects. -/
def Obligations.ModeFieldSelectsTheVariant : Prop :=
  ∀ r : Request,
    (r.mode.toNat = 0 → decode (pack r) = .muldivUp r.a r.b r.c) ∧
    (r.mode.toNat = 1 → decode (pack r) = .muldivDown r.a r.b r.c) ∧
    (r.mode.toNat = 2 → decode (pack r) = .muldivCeiling r.a r.b r.c) ∧
    (r.mode.toNat = 3 → decode (pack r) = .muldivFloor r.a r.b r.c) ∧
    (r.mode.toNat = 4 → decode (pack r) = .muldivHalfUp r.a r.b r.c) ∧
    (r.mode.toNat = 5 → decode (pack r) = .muldivHalfDown r.a r.b r.c) ∧
    (r.mode.toNat = 6 → decode (pack r) = .muldivHalfEven r.a r.b r.c) ∧
    (r.mode.toNat = 7 → decode (pack r) = .muldivUnnecessary r.a r.b r.c) ∧
    (8 ≤ r.mode.toNat → decode (pack r) = .muldivDefault r.mode r.a r.b r.c) ∧
    (r.mode.extractLsb' 3 29 = 0 ↔ r.mode.toNat < 8) ∧
    (r.mode.extractLsb' 3 29 = 0 → r.mode.toNat = (r.mode.extractLsb' 0 3).toNat)

/-- R40: every unrecognised mode value, those with bit 31 set among them, answers as ROUND_DOWN does. -/
def Obligations.UnrecognisedModesAreNoError : Prop :=
  ∀ (r : Request) (s : State), 8 ≤ r.mode.toNat →
    exec (decode (pack r)) s = exec (decode (pack { r with mode := 1 })) s ∧
    (r.c ≠ 0 → ∃ y, exec (decode (pack r)) s = .next { s with presented := some (.ok y) })

/-- Request words written out from the encoding, of each variant, decode to the instruction they stand for. -/
def Obligations.WrittenOutWordsDecode : Prop :=
  decode 0x00000004000000000000000200000000000000030000000000000007 = .muldivHalfUp 7 3 2 ∧
  decode 0xFFFFFFFF7FFFFFFFFFFFFFFF8000000000000000FFFFFFFFFFFFFFFF =
    .muldivDefault 0xFFFFFFFF (-1) 0x8000000000000000 0x7FFFFFFFFFFFFFFF ∧
  decode 0x0000000600000000000003E80000000000000C3500000000000007CF = .muldivHalfEven 1999 3125 1000 ∧
  decode 0x00000007000000000000000800000000000000040000000000000096 = .muldivUnnecessary 150 4 8 ∧
  decode 0x00000001000000000000000100000000000000027FFFFFFFFFFFFFFF = .muldivDown 9223372036854775807 2 1 ∧
  decode 0x0000000280000000000000007FFFFFFFFFFFFFFF7FFFFFFFFFFFFFFF =
    .muldivCeiling 9223372036854775807 9223372036854775807 0x8000000000000000 ∧
  decode 0x00000000000000000000000200000000000000030000000000000007 = .muldivUp 7 3 2 ∧
  decode 0x0000000300000000000000020000000000000003FFFFFFFFFFFFFFF9 = .muldivFloor (-7) 3 2 ∧
  decode 0x00000005000000000000000200000000000000030000000000000005 = .muldivHalfDown 5 3 2

/-- R36: the response word, and what a consumer may read of it. -/
def Obligations.ResponseWordCarriesStatusAndResult : Prop :=
  (∀ y : Word64, encodeResponse (.ok y) = (0 : BitVec 2) ++ y) ∧
  (∀ k : ErrorKind, encodeResponse (.err k) = k.code ++ (0 : BitVec 64)) ∧
  (∀ r : Response, (encodeResponse r).extractLsb' 64 2 = r.status ∧
    (r.status ≠ 0 → (encodeResponse r).extractLsb' 0 64 = 0)) ∧
  (∀ (s : State) (y : Word64), readResult s = .ok y → readStatus s = .ok 0)

/-- A consumer gets back exactly the outcome that was encoded, so no two outcomes share a word; a word whose status is 3
is no response. -/
def Obligations.ResponseWordsTellOutcomesApart : Prop :=
  (∀ r : Response, decodeResponse (encodeResponse r) = some r) ∧
  (∀ r r' : Response, encodeResponse r = encodeResponse r' → r = r') ∧
  (∀ w : ResponseWord, w.extractLsb' 64 2 = 3 → decodeResponse w = none)

/-- The assembler syntax: a disassembled request assembles to itself; the raw form of a mode from 0 to 7 is the request of
the named form; the disassembler prints 0 to 7 as the named form and every other mode as the raw form. -/
def Obligations.AssemblerRoundTrips : Prop :=
  (∀ r : Request, assemble (disassemble r) = some r) ∧
  (∀ (m : Fin 8) (a b c : AsmOperand), assemble (.raw m.val a b c) = assemble (.named m a b c)) ∧
  (∀ r : Request, (∃ m a b c, disassemble r = .named m a b c ∧ m.val = r.mode.toNat) ↔ r.mode.toNat < 8) ∧
  (∀ r : Request, 8 ≤ r.mode.toNat → ∃ a b c, disassemble r = .raw r.mode.toNat a b c)

/-! ### The datapath -/

/-- R53, R55: the product is exact, within its bounds, and both bounds are reached. -/
def Obligations.MultiplierIsExact : Prop :=
  (∀ a b : Word64, (mul128 a b).toInt = a.toInt * b.toInt ∧
    -2 ^ 126 + 2 ^ 63 ≤ (mul128 a b).toInt ∧ (mul128 a b).toInt ≤ 2 ^ 126 ∧ mul128 a b = mul128 b a) ∧
  (∀ a : Word64, mul128 a 0 = 0 ∧ mul128 0 a = 0) ∧
  (mul128 0x8000000000000000 0x8000000000000000).toInt = 2 ^ 126 ∧
  (mul128 0x8000000000000000 0x7FFFFFFFFFFFFFFF).toInt = -2 ^ 126 + 2 ^ 63 ∧
  (mul128 0x8000000000000000 (-1)).toInt = 2 ^ 63 ∧
  (mul128 7 3).toInt = 21 ∧ (mul128 (-7) 3).toInt = -21

/-- The product is the low 128 bits of the product of the sign-extended operands. -/
def Obligations.MultiplierIsSignedBySigned : Prop :=
  ∀ a b : Word64, mul128 a b = a.signExtend 128 * b.signExtend 128

/-- R56: a 64-bit product that is sign-extended afterwards is not the multiplier's, whenever the true product lies outside
64 bits. -/
def Obligations.NarrowMultiplierWouldDiffer : Prop :=
  (∀ a b : Word64, (a.toInt * b.toInt < -2 ^ 63 ∨ 2 ^ 63 - 1 < a.toInt * b.toInt) →
    mul128 a b ≠ (a * b).signExtend 128) ∧
  (mul128 0x7FFFFFFFFFFFFFFF 2).toInt = 2 ^ 64 - 2 ∧ ((0x7FFFFFFFFFFFFFFF * 2 : Word64).signExtend 128).toInt = -2

/-- R58: what the divider's results satisfy, for every dividend above the most negative one (every product is) and every
nonzero divisor. -/
def Obligations.DividerTruncates : Prop :=
  ∀ (p : Wide) (c : Word64) (h : sval c ≠ 0), -2 ^ 127 < p.toInt →
    p.toInt = c.toInt * (div128 p c h).1.toInt + (div128 p c h).2.toInt ∧
    (div128 p c h).2.toInt.natAbs < c.toInt.natAbs ∧
    ((div128 p c h).2.toInt = 0 ∨ ((div128 p c h).2.toInt < 0 ↔ p.toInt < 0)) ∧
    ((div128 p c h).1.toInt = 0 ∨ (0 < (div128 p c h).1.toInt ↔ (p.toInt < 0 ↔ c.toInt < 0))) ∧
    (div128 p c h).1.toInt.natAbs = p.toInt.natAbs / c.toInt.natAbs

/-- R57: the divider's two results, and its corner cases. -/
def Obligations.DividerGivesQuotientAndRemainder : Prop :=
  (∀ (p : Wide) (c : Word64) (h : sval c ≠ 0), -2 ^ 127 < p.toInt →
    (div128 p c h).1.toInt = p.toInt.tdiv c.toInt ∧
    (div128 p c h).2.toInt = p.toInt - c.toInt * p.toInt.tdiv c.toInt ∧
    (div128 p c h).2.toInt = p.toInt.tmod c.toInt ∧
    (p.toInt.natAbs < c.toInt.natAbs → div128 p c h = (0, p))) ∧
  (∀ (c : Word64) (h : sval c ≠ 0), div128 0 c h = (0, 0)) ∧
  (∀ (p : Wide) (h : sval 1 ≠ 0), div128 p 1 h = (p, 0)) ∧
  (∀ (p : Wide) (h : sval (-1) ≠ 0), -2 ^ 127 < p.toInt → div128 p (-1) h = (-p, 0)) ∧
  (∀ h, div128 21 2 h = (10, 1)) ∧ (∀ h, div128 (-21) 2 h = (-10, -1))

/-- R60: the ranges of the quotient and the remainder of every request with a nonzero divisor. -/
def Obligations.DividerResultsStayInRange : Prop :=
  ∀ (a b c : Word64) (h : sval c ≠ 0),
    (div128 (mul128 a b) c h).1.toInt.natAbs ≤ (mul128 a b).toInt.natAbs ∧
    (mul128 a b).toInt.natAbs ≤ 2 ^ 126 ∧
    (div128 (mul128 a b) c h).2.toInt.natAbs ≤ c.toInt.natAbs - 1 ∧ c.toInt.natAbs - 1 ≤ 2 ^ 63 - 1 ∧
    (div128 (mul128 a b) c h).2 = ((div128 (mul128 a b) c h).2.extractLsb' 0 64).signExtend 128 ∧
    (2 ≤ c.toInt.natAbs → (div128 (mul128 a b) c h).1.toInt.natAbs ≤ 2 ^ 125)

/-- R62: the four sign combinations; the remainder's sign follows the product and never the divisor. -/
def Obligations.RemainderSignFollowsTheDividend : Prop :=
  (∀ h, div128 21 2 h = (10, 1)) ∧ (∀ h, div128 (-21) 2 h = (-10, -1)) ∧
  (∀ h, div128 21 (-2) h = (-10, 1)) ∧ (∀ h, div128 (-21) (-2) h = (10, -1)) ∧
  (∀ (a b c : Word64) (h : sval c ≠ 0), (div128 (mul128 a b) c h).2.toInt ≠ 0 →
    ((div128 (mul128 a b) c h).2.toInt < 0 ↔ (mul128 a b).toInt < 0))

/-- R61: the quotient of every request is the whole integer quotient, in 128 bits; `c = -1` and `c = -2^63` among them. -/
def Obligations.DividerNeverOverflows : Prop :=
  (∀ (a b c : Word64) (h : sval c ≠ 0), -2 ^ 127 < (mul128 a b).toInt ∧
    (div128 (mul128 a b) c h).1.toInt = (mul128 a b).toInt.tdiv c.toInt) ∧
  (∀ h, div128 (BitVec.ofInt 128 (2 ^ 126)) (-1) h = (BitVec.ofInt 128 (-2 ^ 126), 0)) ∧
  (∀ h, div128 (BitVec.ofInt 128 (2 ^ 126)) 0x8000000000000000 h = (BitVec.ofInt 128 (-2 ^ 63), 0)) ∧
  (∀ h, div128 (BitVec.ofInt 128 (-2 ^ 126 + 2 ^ 63)) 0x8000000000000000 h = (BitVec.ofInt 128 (2 ^ 63 - 1), 0)) ∧
  (∀ h, div128 (BitVec.ofInt 128 (2 ^ 63)) 0x8000000000000000 h = (-1, 0))

/-- R63: the values the mux reads. -/
def Obligations.MuxReadsTheShiftedThreshold : Prop :=
  (∀ c : Word64, threshold c = c.toInt / 2 ∧ negThreshold c = -(c.toInt / 2) ∧
    -2 ^ 62 + 1 ≤ negThreshold c ∧ negThreshold c ≤ 2 ^ 62) ∧
  (∀ p : Wide, isPos p = true ↔ 0 ≤ p.toInt) ∧
  (∀ a b c : Word64, Inexact a b c → (isPos (mul128 a b) = true ↔ 0 < (mul128 a b).toInt))

/-- R64: `odd` is the parity of the integer, whatever its sign. -/
def Obligations.OddIsTheParityOfTheQuotient : Prop :=
  ∀ q : Wide, odd q = q.toInt % 2 ∧ (odd q = 1 ↔ q.getLsbD 0 = true) ∧ (odd q = 0 ↔ q.getLsbD 0 = false)

/-- R65: on the inexact path the divisor is at least two in magnitude, the quotient and the adjusted quotient stay in
range, and each variant moves the quotient by the amount of the rule's table, or raises. -/
def Obligations.MuxMovesTheQuotientByAtMostOne : Prop :=
  ∀ (a b c : Word64) (m : ModeWord), Inexact a b c →
    let p := prod a b
    let q := p.tdiv c.toInt
    let r := p.tmod c.toInt
    let h := c.toInt / 2
    2 ≤ c.toInt.natAbs ∧ q.natAbs ≤ 2 ^ 125 ∧
    (∀ d : Int, -1 ≤ d → d ≤ 1 → (q + d).natAbs ≤ 2 ^ 125 + 1) ∧
    selected (.muldivUp a b c) = .ok (q + if 0 < p then 1 else -1) ∧
    selected (.muldivDown a b c) = .ok (q + 0) ∧
    selected (.muldivCeiling a b c) = .ok (q + if 0 < p then 1 else 0) ∧
    selected (.muldivFloor a b c) = .ok (q + if 0 < p then 0 else -1) ∧
    selected (.muldivHalfUp a b c) = .ok (q + if 0 < p then (if h ≤ r then 1 else 0) else (if r ≤ -h then -1 else 0)) ∧
    selected (.muldivHalfDown a b c) = .ok (q + if 0 < p then (if h < r then 1 else 0) else (if r < -h then -1 else 0)) ∧
    selected (.muldivHalfEven a b c) = .ok (q + if 0 < p then (if h < r then 1 else if r < h then 0 else q % 2)
      else (if r < -h then -1 else if -h < r then 0 else -(q % 2))) ∧
    selected (.muldivUnnecessary a b c) = .error .roundingUnnecessaryViolation ∧
    selected (.muldivDefault m a b c) = .ok (q + 0)

/-- R52: over every request with a nonzero divisor the product, the quotient and every selected quotient stay within
`2^126` in magnitude, and the remainder fits in 64 bits. -/
def Obligations.NoStageOverflows : Prop :=
  ∀ (r : Request) (h : sval r.c ≠ 0),
    -2 ^ 126 ≤ prod r.a r.b ∧ prod r.a r.b ≤ 2 ^ 126 ∧ (mul128 r.a r.b).toInt = prod r.a r.b ∧
    -2 ^ 126 ≤ (prod r.a r.b).tdiv r.c.toInt ∧ (prod r.a r.b).tdiv r.c.toInt ≤ 2 ^ 126 ∧
    (div128 (mul128 r.a r.b) r.c h).1.toInt = (prod r.a r.b).tdiv r.c.toInt ∧
    (div128 (mul128 r.a r.b) r.c h).2.toInt = (prod r.a r.b).tmod r.c.toInt ∧
    -2 ^ 63 ≤ (prod r.a r.b).tmod r.c.toInt ∧ (prod r.a r.b).tmod r.c.toInt ≤ 2 ^ 63 - 1 ∧
    (∀ q, selected (decodeRequest r) = .ok q → -2 ^ 126 ≤ q ∧ q ≤ 2 ^ 126)

/-- For a positive even divisor the three half modes round to nearest, a tie going away from zero, toward zero and to the
even neighbour; for a positive odd divisor HALF_DOWN rounds to nearest. -/
def Obligations.HalfModesRoundToNearest : Prop :=
  ∀ a b c : Word64, Inexact a b c → 0 < c.toInt →
    (c.toInt % 2 = 0 → ∃ q, selected (.muldivHalfUp a b c) = .ok q ∧ 2 * (q * c.toInt - prod a b).natAbs ≤ c.toInt.natAbs ∧
      (2 * (q * c.toInt - prod a b).natAbs = c.toInt.natAbs → (prod a b).natAbs < (q * c.toInt).natAbs)) ∧
    (c.toInt % 2 = 0 → ∃ q, selected (.muldivHalfDown a b c) = .ok q ∧ 2 * (q * c.toInt - prod a b).natAbs ≤ c.toInt.natAbs ∧
      (2 * (q * c.toInt - prod a b).natAbs = c.toInt.natAbs → (q * c.toInt).natAbs < (prod a b).natAbs)) ∧
    (c.toInt % 2 = 0 → ∃ q, selected (.muldivHalfEven a b c) = .ok q ∧ 2 * (q * c.toInt - prod a b).natAbs ≤ c.toInt.natAbs ∧
      (2 * (q * c.toInt - prod a b).natAbs = c.toInt.natAbs → q % 2 = 0)) ∧
    (c.toInt % 2 = 1 → ∃ q, selected (.muldivHalfDown a b c) = .ok q ∧ 2 * (q * c.toInt - prod a b).natAbs < c.toInt.natAbs)

/-- R76: with a negative divisor the formulas apply unchanged: which way each variant moves, and that every half mode
moves the quotient by one on every inexact operation. -/
def Obligations.NegativeDivisorsFollowTheFormulas : Prop :=
  (∀ a b c : Word64, Inexact a b c → c.toInt < 0 →
    let p := prod a b
    let q := p.tdiv c.toInt
    (0 < p → (q * c.toInt < p ∧ p < (q - 1) * c.toInt) ∧
      selected (.muldivUp a b c) = .ok (q + 1) ∧ selected (.muldivDown a b c) = .ok q ∧
      selected (.muldivCeiling a b c) = .ok (q + 1) ∧ selected (.muldivFloor a b c) = .ok q ∧
      selected (.muldivHalfUp a b c) = .ok (q + 1) ∧ selected (.muldivHalfDown a b c) = .ok (q + 1) ∧
      selected (.muldivHalfEven a b c) = .ok (q + 1)) ∧
    (p < 0 → ((q + 1) * c.toInt < p ∧ p < q * c.toInt) ∧
      selected (.muldivUp a b c) = .ok (q - 1) ∧ selected (.muldivDown a b c) = .ok q ∧
      selected (.muldivCeiling a b c) = .ok q ∧ selected (.muldivFloor a b c) = .ok (q - 1) ∧
      selected (.muldivHalfUp a b c) = .ok (q - 1) ∧ selected (.muldivHalfDown a b c) = .ok (q - 1) ∧
      selected (.muldivHalfEven a b c) = .ok (q - 1)) ∧
    selected (.muldivUnnecessary a b c) = .error .roundingUnnecessaryViolation) ∧
  Gives (.muldivUp 7 3 (-2)) (.ok (-9)) ∧ Gives (.muldivDown 7 3 (-2)) (.ok (-10)) ∧
  Gives (.muldivCeiling 7 3 (-2)) (.ok (-9)) ∧ Gives (.muldivFloor 7 3 (-2)) (.ok (-10)) ∧
  Gives (.muldivHalfUp 7 3 (-2)) (.ok (-9)) ∧ Gives (.muldivHalfDown 7 3 (-2)) (.ok (-9)) ∧
  Gives (.muldivHalfEven 7 3 (-2)) (.ok (-9)) ∧
  Gives (.muldivUp (-7) 3 (-2)) (.ok 9) ∧ Gives (.muldivDown (-7) 3 (-2)) (.ok 10) ∧
  Gives (.muldivCeiling (-7) 3 (-2)) (.ok 10) ∧ Gives (.muldivFloor (-7) 3 (-2)) (.ok 9) ∧
  Gives (.muldivHalfUp (-7) 3 (-2)) (.ok 9) ∧ Gives (.muldivHalfDown (-7) 3 (-2)) (.ok 9) ∧
  Gives (.muldivHalfEven (-7) 3 (-2)) (.ok 9)

/-! ### The sequencer and the errors, for every request -/

/-- R46: a zero divisor raises `DivideByZero` for every variant, every operand and every mode value, and does nothing
else. -/
def Obligations.ZeroDivisorRaisesForEveryVariant : Prop :=
  ∀ (a b : Word64) (m : ModeWord) (s : State),
    exec (decodeRequest ⟨a, b, 0, m⟩) s = .next { s with presented := some (.err .divideByZero) }

/-- R47: an exact division gives its quotient whatever the mode value; a zero operand gives zero. -/
def Obligations.ExactDivisionsIgnoreTheMode : Prop :=
  (∀ (r : Request) (s : State), r.c.toInt ≠ 0 → (prod r.a r.b).tmod r.c.toInt = 0 →
    exec (decodeRequest r) s = .next { s with presented := some (narrowed ((prod r.a r.b).tdiv r.c.toInt)) }) ∧
  (∀ (r : Request) (s : State), r.c ≠ 0 → (r.a = 0 ∨ r.b = 0) →
    exec (decodeRequest r) s = .next { s with presented := some (.ok 0) }) ∧
  Gives (.muldivUnnecessary 5 5 5) (.ok 5)

/-- R49: the result is the low 64 bits of the selected quotient, with status 0, and wraps when the quotient does not
fit. -/
def Obligations.ResultIsTheLowHalfOfTheQuotient : Prop :=
  (∀ (r : Request) (s : State) (q : Int), selected (decodeRequest r) = .ok q →
    ∃ y, exec (decodeRequest r) s = .next { s with presented := some (.ok y) } ∧
      y = (BitVec.ofInt 128 q).extractLsb' 0 64 ∧ (2 ^ 64 : Int) ∣ y.toInt - q ∧
      (-2 ^ 63 ≤ q → q ≤ 2 ^ 63 - 1 → y.toInt = q) ∧ (Response.ok y).status = 0) ∧
  Gives (.muldivDown 9223372036854775807 2 1) (.ok 0xFFFFFFFFFFFFFFFE)

/-- R50: under the caller's contract the result is the rounded quotient itself; a broken first duty gives the error; a broken
second one the wrapped value. -/
def Obligations.ContractGivesTheTrueQuotient : Prop :=
  ∀ (r : Request) (s : State),
    (r.c = 0 → exec (decodeRequest r) s = .next { s with presented := some (.err .divideByZero) }) ∧
    (r.c ≠ 0 → ∀ q, selected (decodeRequest r) = .ok q →
      ∃ y, exec (decodeRequest r) s = .next { s with presented := some (.ok y) } ∧
        (InRange r ↔ y.toInt = q) ∧ (¬ InRange r → y = BitVec.ofInt 64 q))

/-- R81: which outcome applies when more than one could. -/
def Obligations.OutcomesApplyInOrder : Prop :=
  ∀ (r : Request) (s : State),
    (r.c = 0 → exec (decodeRequest r) s = .next { s with presented := some (.err .divideByZero) }) ∧
    (r.c ≠ 0 → (prod r.a r.b).tmod r.c.toInt = 0 →
      exec (decodeRequest r) s = .next { s with presented := some (narrowed ((prod r.a r.b).tdiv r.c.toInt)) }) ∧
    (r.c ≠ 0 → (prod r.a r.b).tmod r.c.toInt ≠ 0 → r.mode = 7 →
      exec (decodeRequest r) s = .next { s with presented := some (.err .roundingUnnecessaryViolation) }) ∧
    (r.c ≠ 0 → (prod r.a r.b).tmod r.c.toInt ≠ 0 → r.mode ≠ 7 →
      ∃ q, selected (decodeRequest r) = .ok q ∧ exec (decodeRequest r) s = .next { s with presented := some (narrowed q) })

/-- R77, R42: exactly two errors, each with its cause and its status; every other request has status 0, and no response
has status 3. -/
def Obligations.ExactlyTwoErrorsWithTheirCauses : Prop :=
  ∀ (r : Request) (s : State), ∃ o, exec (decodeRequest r) s = .next { s with presented := some o } ∧
    (o = .err .roundingUnnecessaryViolation ↔ r.mode = 7 ∧ r.c ≠ 0 ∧ (prod r.a r.b).tmod r.c.toInt ≠ 0) ∧
    (o = .err .divideByZero ↔ r.c = 0) ∧
    (o = .err .roundingUnnecessaryViolation ↔ o.status = 1) ∧ (o = .err .divideByZero ↔ o.status = 2) ∧
    ((∃ y, o = .ok y) ↔ o.status = 0) ∧ o.status ≠ 3 ∧
    (o.status ≠ 0 → encodeResponse o = o.status ++ (0 : BitVec 64))

/-- The frame of every instruction: it goes on from every state, its response is the same in all of them, and the requests
in flight and the host's inputs stay as they are. -/
def Obligations.EveryInstructionOnlyPresentsItsResponse : Prop :=
  ∀ i : Instr, ∃ r : Response, ∀ s : State, exec i s = .next { s with presented := some r }

/-! ### Instants: requests in flight, responses, reset -/

/-- A step runs the decoded instruction: when the oldest request in flight is due and no reset is asserted, the step is
exec of the instruction its fields decode to, in the state where that request is no longer in flight, a request issued at
this instant is captured behind the others, and one instant has passed for those. Counting in instants, and the list of
inputs, are the model's choice (log entries 1 to 4). -/
def Obligations.StepRunsTheDecodedInstruction : Prop :=
  ∀ (s : State) (f : InFlight) (fs : List InFlight) (i : Instr), s.inFlight = f :: fs → f.remaining = 0 →
    decodeRequest f.req = i →
    ((s.inputs = [] ∨ s.inputs.head? = some .quiet) →
      step s = exec i { inFlight := age fs, presented := none, inputs := s.inputs.tail }) ∧
    (∀ w, s.inputs.head? = some (.issue w) →
      step s = exec i { inFlight := age (fs ++ [⟨unpack w, Config.latency⟩]), presented := none, inputs := s.inputs.tail })

/-- The table's word, placed where the next step takes its request from, is what that step decodes and runs (the
model's numbering and placing, log entries 8 and 9). -/
def Obligations.PlacedTableWordRunsNext : Prop :=
  ∀ (s : State) (n w : Nat) (i : Instr), decodeTableWord n w = some i →
    step (s.withFetchWord n w) = exec i { s with inFlight := age s.inFlight, presented := none }

/-- Every step of every state goes on: the core never stops. That a step is one instant, and that it takes one input off a
list, is the model's choice (log entries 1 and 4). -/
def Obligations.EveryInstantGoesOn : Prop :=
  ∀ (latency : Nat) (s : State), ∃ t, instant latency s = .next t ∧ t.inputs = s.inputs.tail

/-- A request that is not answered in its own instant is captured whole, behind the requests already in flight. The rest is
the model's choice: time is counted in instants (log entry 1), the request is taken at once (log entry 2), its count of
instants left (log entry 3), the list of inputs (log entry 4), and that an earlier response is gone at this instant (log
entry 6). -/
def Obligations.IssuedRequestIsCapturedWhole : Prop :=
  ∀ (latency : Nat) (s : State) (w : RequestWord), s.inputs.head? = some (.issue w) → latency ≠ 0 →
    (∀ f, s.inFlight.head? = some f → f.remaining ≠ 0) →
    instant latency s = .next
      { inFlight := age (s.inFlight ++ [⟨⟨w.extractLsb' 0 64, w.extractLsb' 64 64, w.extractLsb' 128 64,
          w.extractLsb' 192 32⟩, latency⟩]), presented := none, inputs := s.inputs.tail }

/-- Latency 0 is combinational: with nothing in flight, a request is answered in the instant it is issued. That it is taken
and answered at that instant, off a list of inputs, with an earlier response gone, is the model's choice (log entries 1,
2, 4 and 6). -/
def Obligations.ZeroLatencyAnswersAtOnce : Prop :=
  ∀ (s : State) (w : RequestWord), s.inFlight = [] → s.inputs.head? = some (.issue w) →
    instant 0 s = exec (decode w) { inFlight := [], presented := none, inputs := s.inputs.tail }

/-- An instant with reset asserted discards every request in flight and presents no response, whatever the state
(70_reset_and_hazards.md section 1). That a request due at this very instant is discarded too is the model's choice (log
entry 18), and so is the list of inputs, of which this instant takes one (log entry 4). -/
def Obligations.ResetDiscardsRequestsInFlight : Prop :=
  ∀ (latency : Nat) (s : State), s.inputs.head? = some .reset →
    instant latency s = .next { inFlight := [], presented := none, inputs := s.inputs.tail }

/-- After reset nothing is in flight, no response is presented, and the requests in flight are scheduled. The invariant and
the faulting read are the model's (log entries 1 to 3 and 7). -/
def Obligations.ResetStateIsScheduledAndSilent : Prop :=
  State.reset.inFlight = [] ∧ State.reset.presented = none ∧ (∀ latency, Scheduled latency State.reset) ∧
  readStatus State.reset = .error .noResponsePresented

/-- A consumer that reads when no response is presented faults, and no value is given (70_reset_and_hazards.md R92). That
one that reads the result of an error faults too is the model's reading (log entry 7) of 93_implementation_defined.md U4:
R92 does not say it, and 30_encoding.md R36 encodes zeros there as filler. -/
def Obligations.NoResponseNoValue : Prop :=
  (∀ s : State, s.presented = none ↔ readStatus s = .error .noResponsePresented) ∧
  (∀ s : State, s.presented = none ↔ readResult s = .error .noResponsePresented) ∧
  (∀ (s : State) (k : ErrorKind), s.presented = some (.err k) → readStatus s = .ok k.code ∧ readResult s = .error .errorHasNoResult) ∧
  (∀ (s : State) (y : Word64), s.presented = some (.ok y) → readStatus s = .ok 0 ∧ readResult s = .ok y)

/-- An instant presents the response of the request that is due, the one that request gets alone, and no response when
none is due or reset is asserted. That a response is presented at the one instant it is due is the model's choice (log
entries 1 and 6), and so is that reset at that instant discards it (log entry 18). -/
def Obligations.InstantPresentsTheDueResponse : Prop :=
  ∀ (latency : Nat) (s t : State), instant latency s = .next t →
    t.presented = (dueRequest latency s).bind outcomeAlone ∧ (t.presented = none ↔ dueRequest latency s = none)

/-- The response presented before, an error or not, has no effect on anything the core presents later.
This rests on the model's choice that a response is presented for one instant only (log entry 6): a core that holds its
response breaks it. That later requests are served the same is 60_exceptions.md section 3. -/
def Obligations.NoMemoryOfTheLastResponse : Prop :=
  ∀ (latency n : Nat) (s : State) (r : Option Response),
    outputs latency n { s with presented := r } = outputs latency n s

/-- Every instant keeps the requests in flight scheduled: due at different instants, the oldest first, within the
latency. This is the model's choice of time: instants (log entry 1), at most one request in each, taken at once (log entry
2), and the count of instants left that each request in flight carries (log entry 3). -/
def Obligations.InstantKeepsRequestsScheduled : Prop :=
  ∀ (latency : Nat) (s t : State), Scheduled latency s → instant latency s = .next t → Scheduled latency t

/-- Where the requests in flight are scheduled, a request with `k` instants left is answered `k` instants later, with the
response it gets alone, if no reset comes before. Counting in instants, the count of a request and the list of inputs are the
model's choice (log entries 1 to 4 and 6). -/
def Obligations.EveryRequestInFlightIsAnswered : Prop :=
  ∀ (latency : Nat) (s : State) (f : InFlight), Scheduled latency s → f ∈ s.inFlight →
    .reset ∉ s.inputs.take (f.remaining + 1) →
    (outputs latency (f.remaining + 1) s)[f.remaining]? = some (outcomeAlone f.req)

/-- Over a whole run without reset, the outputs are the inputs delayed by the latency: exactly one response for each
request, in the order of the requests, each the one that request gets alone, and none at any other instant. That time
is counted in instants, one request at most in each, off a list, and that a response is presented for one of them, is the
model's choice (log entries 1, 2, 4 and 6). -/
def Obligations.ResponsesFollowRequestsInOrder : Prop :=
  ∀ (latency : Nat) (ins : List HostInput), .reset ∉ ins →
    outputs latency (ins.length + latency) { State.reset with inputs := ins } =
      List.replicate latency none ++ ins.map requested

/-- From every state whose requests in flight are scheduled, a run without reset that is long enough presents exactly
one response for each request in flight and each request issued, in the order they were accepted, each the one that
request gets alone (70_reset_and_hazards.md section 3). How long that takes, the count of a request in flight, the list of
inputs, and that a response is presented once and not held are the model's choice (log entries 1 to 4 and 6). -/
def Obligations.EveryRequestIsAnsweredOnceInOrder : Prop :=
  ∀ (latency n : Nat) (s : State), Scheduled latency s → .reset ∉ s.inputs → s.inputs.length + latency ≤ n →
    (outputs latency n s).filterMap id =
      (s.inFlight.map (fun f => outcomeAlone f.req) ++ s.inputs.map requested).filterMap id

/-- If no request in flight or to come has a zero divisor and no `DivideByZero` is presented, that stays so at every
instant. That a run is counted in instants and its requests are a list is the model's choice (log entries 1 and 4). -/
def Obligations.CallerContractExcludesDivideByZero : Prop :=
  ∀ (latency : Nat) (s t : State), CallerNeverDividesByZero s → instant latency s = .next t → CallerNeverDividesByZero t

/-- A step of one instance changes no other instance. That several instances are a list, of which one at a time steps and
its position names it, is the model's choice (log entry 12); the spec says that instances share no state and have no
identifiers (60_exceptions.md section 4). -/
def Obligations.InstancesShareNothing : Prop :=
  ∀ (k : Nat) (cores : List State), (k < cores.length ↔ ∃ cores', stepInstance k cores = some cores') ∧
    ∀ cores', stepInstance k cores = some cores' → cores'.length = cores.length ∧
      (∀ j, j ≠ k → cores'[j]? = cores[j]?) ∧
      ∀ s, cores[k]? = some s → ∃ t, step s = .next t ∧ cores'[k]? = some t
end

