-- ==== Sys2Proof/Laws/Decode.lean ====
section
/-! SUPPORT. Laws/Decode.lean: the request word and its four fields. -/

namespace Sys2Proof

/-- The request word is the fields one after the other, the mode highest. -/
theorem pack_getLsbD (r : Request) (i : Nat) : (pack r).getLsbD i =
    if i < 64 then r.a.getLsbD i
    else if i < 128 then r.b.getLsbD (i - 64)
    else if i < 192 then r.c.getLsbD (i - 128)
    else r.mode.getLsbD (i - 192) := by
  simp only [pack, place, Config.aLo, Config.bLo, Config.cLo, Config.modeLo, BitVec.getLsbD_or, BitVec.getLsbD_shiftLeft,
    BitVec.getLsbD_setWidth]
  split_ifs with h1 h2 h3
  · have : i < 224 := by omega
    simp [h1, this, (by omega : i < 128), (by omega : i < 192)]
  · have : i < 224 := by omega
    simp [h1, h2, this, (by omega : i < 192), (by omega : i - 64 < 224), BitVec.getLsbD_of_ge r.a i (by omega)]
  · have : i < 224 := by omega
    simp [h1, h2, h3, this, (by omega : i - 128 < 224), (by omega : i - 64 < 224), BitVec.getLsbD_of_ge r.a i (by omega),
      BitVec.getLsbD_of_ge r.b (i - 64) (by omega)]
  · by_cases h4 : i < 224
    · simp [h1, h2, h3, h4, (by omega : i - 128 < 224), (by omega : i - 64 < 224), (by omega : i - 192 < 224),
        BitVec.getLsbD_of_ge r.a i (by omega), BitVec.getLsbD_of_ge r.b (i - 64) (by omega),
        BitVec.getLsbD_of_ge r.c (i - 128) (by omega)]
    · simp [h4, BitVec.getLsbD_of_ge r.mode (i - 192) (by omega), BitVec.getLsbD_of_ge r.a i (by omega)]

/-- Unpacking a packed request gives its fields. -/
theorem unpack_pack (r : Request) : unpack (pack r) = r := by
  obtain ⟨a, b, c, mode⟩ := r
  rw [unpack, Request.mk.injEq]
  refine ⟨BitVec.eq_of_getLsbD_eq fun i hi => ?_, BitVec.eq_of_getLsbD_eq fun i hi => ?_,
    BitVec.eq_of_getLsbD_eq fun i hi => ?_, BitVec.eq_of_getLsbD_eq fun i hi => ?_⟩ <;>
    rw [BitVec.getLsbD_extractLsb', decide_eq_true hi, Bool.true_and, pack_getLsbD]
  · rw [Config.aLo, if_pos (by omega), Nat.zero_add]
  · rw [Config.bLo, if_neg (by omega), if_pos (by omega), Nat.add_sub_cancel_left]
  · rw [Config.cLo, if_neg (by omega), if_neg (by omega), if_pos (by omega), Nat.add_sub_cancel_left]
  · rw [Config.modeLo, if_neg (by omega), if_neg (by omega), if_neg (by omega), Nat.add_sub_cancel_left]

/-- Packing the fields of a request word gives the word. -/
theorem pack_unpack (w : RequestWord) : pack (unpack w) = w := by
  refine BitVec.eq_of_getLsbD_eq fun i hi => ?_
  rw [pack_getLsbD]
  unfold unpack
  split_ifs with h1 h2 h3 <;> rw [BitVec.getLsbD_extractLsb']
  · rw [decide_eq_true h1, Config.aLo, Nat.zero_add, Bool.true_and]
  · rw [decide_eq_true (by omega : i - 64 < 64), Config.bLo, Nat.add_sub_cancel' (by omega), Bool.true_and]
  · rw [decide_eq_true (by omega : i - 128 < 64), Config.cLo, Nat.add_sub_cancel' (by omega), Bool.true_and]
  · rw [decide_eq_true (by omega : i - 192 < 32), Config.modeLo, Nat.add_sub_cancel' (by omega), Bool.true_and]

end Sys2Proof
end

