-- ==== Sys2Proof/Laws/Operands.lean ====
section
/-! SUPPORT. Laws/Operands.lean: what the readings of bit vectors and the integer operators satisfy. -/

namespace Sys2Proof.Machine

/-- An integer in range survives being held in `n + 1` bits. -/
theorem sval_bits {n : Nat} {i : Int} (lo : -2 ^ n ≤ i) (hi : i < 2 ^ n) : sval (bits (n + 1) i) = i :=
  BitVec.toInt_ofInt_eq_self (by omega) (by simpa using lo) (by simpa using hi)

/-- A 64-bit operand's range. -/
theorem sval_range64 (v : Word64) : -2 ^ 63 ≤ sval v ∧ sval v < 2 ^ 63 :=
  ⟨BitVec.le_toInt v, BitVec.toInt_lt⟩

/-- Only the zero pattern reads as zero. -/
theorem sval_eq_zero {n : Nat} {v : BitVec n} : sval v = 0 ↔ v = 0 := by
  rw [sval, ← BitVec.toInt_zero (w := n), BitVec.toInt_inj]
  rfl

/-- The truncated quotient's magnitude is the quotient of the magnitudes (00_scope.md R12). -/
theorem natAbs_tdiv (x y : Int) : (tdiv x y).natAbs = x.natAbs / y.natAbs := Int.natAbs_tdiv x y

/-- The remainder and the quotient recompose the dividend (00_scope.md R12). -/
theorem tdiv_add_trem (x y : Int) : y * tdiv x y + trem x y = x := by
  unfold trem; omega

/-- The spec's remainder is the truncating one of the library. -/
theorem trem_eq_tmod (x y : Int) : trem x y = x.tmod y := by
  have := Int.mul_tdiv_add_tmod x y
  unfold trem tdiv; omega

/-- The remainder is smaller than the divisor (42_divider.md R58). -/
theorem natAbs_trem_lt (x : Int) {y : Int} (hy : y ≠ 0) : (trem x y).natAbs < y.natAbs := by
  rw [trem_eq_tmod, Int.natAbs_tmod]
  exact Nat.mod_lt _ (by omega)

/-- The remainder of a dividend that is not negative is not negative (00_scope.md R12). -/
theorem trem_nonneg {x : Int} (hx : 0 ≤ x) (y : Int) : 0 ≤ trem x y := by
  rw [trem_eq_tmod]; exact Int.tmod_nonneg y hx

/-- The remainder of a dividend that is not positive is not positive (00_scope.md R12). -/
theorem trem_nonpos {x : Int} (hx : x ≤ 0) (y : Int) : trem x y ≤ 0 := by
  rw [trem_eq_tmod]
  have := Int.tmod_nonneg y (Int.neg_nonneg.2 hx)
  rw [Int.neg_tmod] at this
  omega

/-- The shift by one halves toward minus infinity (00_scope.md R12). -/
theorem sval_asr1 (c : Word64) : sval (asr1 c) = sval c / 2 := by
  rw [sval, asr1, BitVec.toInt_sshiftRight, Int.shiftRight_eq_div_pow]
  rfl

/-- `odd` is the parity of the integer (43_rounding.md R64). -/
theorem odd_cases (q : Wide) : odd q = 0 ∨ odd q = 1 := by
  unfold odd; split <;> simp

end Sys2Proof.Machine
end

