-- ==== Sys2Proof/Laws/State.lean ====
section
/-! SUPPORT. Laws/State.lean: what each update of the state leaves in each field. -/

namespace Sys2Proof.Machine

variable (s : State) (fs : List InFlight) (r : Option Response) (es : List HostInput)

@[simp] theorem setInFlight_inFlight : (s.setInFlight fs).inFlight = fs := rfl
@[simp] theorem setInFlight_presented : (s.setInFlight fs).presented = s.presented := rfl
@[simp] theorem setInFlight_inputs : (s.setInFlight fs).inputs = s.inputs := rfl
@[simp] theorem setPresented_inFlight : (s.setPresented r).inFlight = s.inFlight := rfl
@[simp] theorem setPresented_presented : (s.setPresented r).presented = r := rfl
@[simp] theorem setPresented_inputs : (s.setPresented r).inputs = s.inputs := rfl
@[simp] theorem setInputs_inFlight : (s.setInputs es).inFlight = s.inFlight := rfl
@[simp] theorem setInputs_presented : (s.setInputs es).presented = s.presented := rfl
@[simp] theorem setInputs_inputs : (s.setInputs es).inputs = es := rfl

@[simp] theorem reset_inFlight : State.reset.inFlight = [] := rfl
@[simp] theorem reset_presented : State.reset.presented = none := rfl
@[simp] theorem reset_inputs : State.reset.inputs = [] := rfl

@[simp] theorem beginInstant_inFlight : (beginInstant s).inFlight = s.inFlight := rfl
@[simp] theorem beginInstant_presented : (beginInstant s).presented = none := rfl
@[simp] theorem beginInstant_inputs : (beginInstant s).inputs = s.inputs.tail := rfl

variable (latency : Nat) (w : RequestWord)

@[simp] theorem accept_inFlight : (accept latency w s).inFlight = s.inFlight ++ [⟨unpack w, latency⟩] := rfl
@[simp] theorem accept_presented : (accept latency w s).presented = s.presented := rfl
@[simp] theorem accept_inputs : (accept latency w s).inputs = s.inputs := rfl

@[simp] theorem discardAll_inFlight : (discardAll s).inFlight = [] := rfl
@[simp] theorem discardAll_presented : (discardAll s).presented = none := rfl
@[simp] theorem discardAll_inputs : (discardAll s).inputs = s.inputs := rfl

@[simp] theorem age_nil : age [] = [] := rfl
@[simp] theorem age_cons (f : InFlight) : age (f :: fs) = { f with remaining := f.remaining - 1 } :: age fs := rfl
@[simp] theorem age_append (gs : List InFlight) : age (fs ++ gs) = age fs ++ age gs := List.map_append
@[simp] theorem age_length : (age fs).length = fs.length := List.length_map _

/-- Aging changes no captured field. -/
theorem mem_age {g : InFlight} : g ∈ age fs ↔ ∃ f ∈ fs, g.req = f.req ∧ g.remaining = f.remaining - 1 := by
  simp only [age, List.mem_map]
  constructor
  · rintro ⟨f, hf, rfl⟩
    exact ⟨f, hf, rfl, rfl⟩
  · rintro ⟨f, hf, hr, hk⟩
    exact ⟨f, hf, by cases g; simp_all⟩

/-- Two states with equal fields are equal. -/
theorem state_eq {s t : State} (hf : s.inFlight = t.inFlight) (hp : s.presented = t.presented) (hi : s.inputs = t.inputs) :
    s = t := by
  cases s; cases t; simp_all

end Sys2Proof.Machine
end

