-- ==== Sys2Proof/Laws/Muldiv.lean ====
section
/-! SUPPORT. Laws/Muldiv.lean: what the sequencer and the meanings can do. -/

namespace Sys2Proof.Machine

/-- The mux's `pos` (43_rounding.md R63). -/
theorem isPos_iff (p : Wide) : isPos p = true ↔ 0 ≤ sval p := decide_eq_true_iff

/-- The response to a selected quotient or an error (40_datapath.md R49, 60_exceptions.md R77). -/
def responseOf : Except ErrorKind Int → Response
  | .ok q => respondOk q
  | .error kind => raise kind

/-- Every instruction delivers the response to what it selects, and nothing else. -/
theorem exec_eq_deliver (i : Instr) (s : State) : exec i s = deliver (responseOf (selected i)) s := by
  cases i <;> rfl

/-- Delivering a response goes on with that response presented. -/
theorem deliver_eq (r : Response) (s : State) : deliver r s = .next { s with presented := some r } := rfl

/-- A zero divisor ends the sequencer (40_datapath.md R46). -/
theorem select_zero (adjust : Adjust) (a b : Word64) {c : Word64} (hc : sval c = 0) :
    select adjust a b c = .error .divideByZero := by
  rw [select, dif_pos hc]

/-- The exact path (40_datapath.md R47). -/
theorem select_exact (adjust : Adjust) (a b : Word64) {c : Word64} (hc : sval c ≠ 0)
    (hr : sval (div128 (mul128 a b) c hc).2 = 0) :
    select adjust a b c = .ok (sval (div128 (mul128 a b) c hc).1) := by
  rw [select, dif_neg hc]
  exact if_pos hr

/-- The inexact path (40_datapath.md R48). -/
theorem select_inexact (adjust : Adjust) (a b : Word64) {c : Word64} (hc : sval c ≠ 0)
    (hr : sval (div128 (mul128 a b) c hc).2 ≠ 0) :
    select adjust a b c = adjust (mul128 a b) (div128 (mul128 a b) c hc).1 (div128 (mul128 a b) c hc).2 c := by
  rw [select, dif_neg hc]
  exact if_neg hr

/-- A request alone gets the response to what its instruction selects. -/
theorem outcomeAlone_eq (r : Request) : outcomeAlone r = some (responseOf (selected (decodeRequest r))) := by
  rw [outcomeAlone, exec_eq_deliver, deliver_eq]

/-- Serving a request presents the response it gets alone and changes nothing else. -/
theorem exec_decodeRequest (r : Request) (s : State) :
    exec (decodeRequest r) s = .next { s with presented := outcomeAlone r } := by
  rw [exec_eq_deliver, deliver_eq, outcomeAlone_eq]

end Sys2Proof.Machine
end

