-- ==== Sys2Proof/Laws/Instant.lean ====
section
/-! SUPPORT. Laws/Instant.lean: what one instant can do. -/

namespace Sys2Proof.Machine

/-- What the instant's input adds to the requests in flight. -/
def arrivals (latency : Nat) (s : State) : List InFlight :=
  match nextInput s with
  | .issue w => [{ req := unpack w, remaining := latency }]
  | .quiet => []
  | .reset => []

/-- Answering with nothing in flight only passes the instant. -/
theorem answer_nil {s : State} (h : s.inFlight = []) : answer s = .next s := by
  rw [answer, h]

/-- A due request is answered with the response it gets alone, and one instant passes for the others. -/
theorem answer_due {s : State} {f : InFlight} {fs : List InFlight} (h : s.inFlight = f :: fs) (hf : f.remaining = 0) :
    answer s = .next { s with inFlight := age fs, presented := outcomeAlone f.req } := by
  rw [answer, h]
  simp only [hf, if_true]
  rw [exec_decodeRequest]
  rfl

/-- A request that is not due is not answered. -/
theorem answer_waiting {s : State} {f : InFlight} {fs : List InFlight} (h : s.inFlight = f :: fs) (hf : f.remaining ≠ 0) :
    answer s = .next { s with inFlight := age (f :: fs) } := by
  rw [answer, h]
  simp only [hf, if_false]
  rfl

/-- An instant without reset answers the requests in flight together with the one that arrives. -/
theorem instant_eq_answer (latency : Nat) {s : State} (h : nextInput s ≠ .reset) :
    instant latency s = answer { inFlight := s.inFlight ++ arrivals latency s, presented := none, inputs := s.inputs.tail } := by
  unfold instant arrivals
  split
  · exact absurd ‹_› h
  · simp only [*]
    rfl
  · simp only [*, List.append_nil]
    rfl

/-- An instant with reset leaves nothing in flight and no response. -/
theorem instant_reset (latency : Nat) {s : State} (h : nextInput s = .reset) :
    instant latency s = .next { inFlight := [], presented := none, inputs := s.inputs.tail } := by
  rw [instant, h]; rfl

/-- The three things an instant can do: reset; answer the oldest request in flight, which is due; or pass. -/
theorem instant_cases {latency : Nat} {s t : State} (h : instant latency s = .next t) :
    (nextInput s = .reset ∧ t = { inFlight := [], presented := none, inputs := s.inputs.tail }) ∨
    (nextInput s ≠ .reset ∧ ∃ f fs, s.inFlight ++ arrivals latency s = f :: fs ∧ f.remaining = 0 ∧
      t = { inFlight := age fs, presented := outcomeAlone f.req, inputs := s.inputs.tail }) ∨
    (nextInput s ≠ .reset ∧ (∀ f fs, s.inFlight ++ arrivals latency s = f :: fs → f.remaining ≠ 0) ∧
      t = { inFlight := age (s.inFlight ++ arrivals latency s), presented := none, inputs := s.inputs.tail }) := by
  by_cases hr : nextInput s = .reset
  · rw [instant_reset latency hr] at h
    exact .inl ⟨hr, (Host.Outcome.next.inj h).symm⟩
  rw [instant_eq_answer latency hr] at h
  rcases hl : s.inFlight ++ arrivals latency s with _ | ⟨f, fs⟩
  · rw [answer_nil hl] at h
    refine .inr (.inr ⟨hr, by simp, ?_⟩)
    rw [← Host.Outcome.next.inj h]
    simp [hl]
  · by_cases hf : f.remaining = 0
    · rw [answer_due hl hf] at h
      exact .inr (.inl ⟨hr, f, fs, rfl, hf, (Host.Outcome.next.inj h).symm⟩)
    · rw [answer_waiting hl hf] at h
      refine .inr (.inr ⟨hr, ?_, (Host.Outcome.next.inj h).symm⟩)
      rintro g gs hg
      cases hg
      exact hf

end Sys2Proof.Machine
end

