-- ==== Sys2Proof/Laws/PerInstr.lean ====
section
/-! SUPPORT. Laws/PerInstr.lean: per instruction, that its encoding carries exactly its own fields. -/

namespace Sys2Proof.Laws.Layout

/-- The request word of an instruction unpacks to the fields that encode it: no bit of an operand or of the mode is lost. -/
def Statement (i : Instr) : Prop := unpack (encode i) = encodeRequest i

variable (a b c : Word64)

theorem muldivUp : Statement (.muldivUp a b c) := unpack_pack _
theorem muldivDown : Statement (.muldivDown a b c) := unpack_pack _
theorem muldivCeiling : Statement (.muldivCeiling a b c) := unpack_pack _
theorem muldivFloor : Statement (.muldivFloor a b c) := unpack_pack _
theorem muldivHalfUp : Statement (.muldivHalfUp a b c) := unpack_pack _
theorem muldivHalfDown : Statement (.muldivHalfDown a b c) := unpack_pack _
theorem muldivHalfEven : Statement (.muldivHalfEven a b c) := unpack_pack _
theorem muldivUnnecessary : Statement (.muldivUnnecessary a b c) := unpack_pack _
theorem muldivDefault (mode : ModeWord) : Statement (.muldivDefault mode a b c) := unpack_pack _

end Sys2Proof.Laws.Layout
end

