-- ==== Sys2Proof/Tests/Slice0.lean ====
section
/-! SUPPORT. Tests/Slice0.lean: the model's own tests. Every expected value is the spec's: its worked examples
(95_test_vectors.md X1 to X6), its vectors (M, D, V, S, E rows) and its programs, or a word written out from the encoding
(30_encoding.md R35, R39). After them, a witness for the hypotheses of each statement. -/

namespace Sys2Proof.Tests

open Sys2Proof.Machine Sys2Proof.Claims

/-- What an instruction presents when it runs right after reset. -/
def presents (i : Instr) : Option Response :=
  match exec i State.reset with
  | .next t => t.presented
  | .fault _ => none
  | .refused _ => none

/-! ### Well-formedness -/

theorem test_default_of_a_named_mode_is_ill_formed :
    (Instr.muldivDefault 0 7 3 2).wellFormed = false ∧ (Instr.muldivDefault 7 7 3 2).wellFormed = false := by decide
theorem test_default_of_an_unrecognised_mode_is_well_formed :
    (Instr.muldivDefault 8 7 3 2).wellFormed = true ∧ (Instr.muldivDefault 0xFFFFFFFF 7 3 2).wellFormed = true := by decide

/-! ### Decoding: words written out from the format, mode c b a -/

theorem test_decode_up : decode 0x00000000_0000000000000002_0000000000000003_0000000000000007 = .muldivUp 7 3 2 := by decide
theorem test_decode_down :
    decode 0x00000001_0000000000000001_0000000000000002_7FFFFFFFFFFFFFFF = .muldivDown 9223372036854775807 2 1 := by decide
theorem test_decode_ceiling : decode 0x00000002_8000000000000000_7FFFFFFFFFFFFFFF_7FFFFFFFFFFFFFFF =
    .muldivCeiling 9223372036854775807 9223372036854775807 (-9223372036854775808) := by decide
theorem test_decode_floor : decode 0x00000003_0000000000000002_0000000000000003_FFFFFFFFFFFFFFF9 = .muldivFloor (-7) 3 2 := by decide
theorem test_decode_half_up : decode 0x00000004_0000000000000002_0000000000000003_0000000000000007 = .muldivHalfUp 7 3 2 := by decide
theorem test_decode_half_down : decode 0x00000005_0000000000000002_0000000000000003_0000000000000005 = .muldivHalfDown 5 3 2 := by decide
theorem test_decode_half_even :
    decode 0x00000006_00000000000003E8_0000000000000C35_00000000000007CF = .muldivHalfEven 1999 3125 1000 := by decide
theorem test_decode_unnecessary :
    decode 0x00000007_0000000000000008_0000000000000004_0000000000000096 = .muldivUnnecessary 150 4 8 := by decide
theorem test_decode_default : decode 0xFFFFFFFF_7FFFFFFFFFFFFFFF_8000000000000000_FFFFFFFFFFFFFFFF =
    .muldivDefault 0xFFFFFFFF (-1) (-9223372036854775808) 9223372036854775807 := by decide
theorem test_decode_first_unrecognised_mode :
    decode 0x00000008_0000000000000002_0000000000000003_0000000000000007 = .muldivDefault 8 7 3 2 := by decide

theorem test_encode_e1 : encode (.muldivHalfUp 7 3 2) = 0x00000004000000000000000200000000000000030000000000000007 := by decide
theorem test_encode_program3 : encode (.muldivDefault 256 7 3 2) = 0x00000100000000000000000200000000000000030000000000000007 := by
  decide
theorem test_other_lengths_are_rejected : decodeBits 223 0 = .error (.wrongLength 223) ∧
    decodeBits 225 0 = .error (.wrongLength 225) ∧ decodeBits 224 0 = .ok (.muldivUp 0 0 0) := by decide

theorem test_table_words_decode : decodeTableWord 32 0 = some (.muldivUp 0 0 0) ∧ decodeTableWord 32 1 = some (.muldivDown 0 0 0) ∧
    decodeTableWord 32 2 = some (.muldivCeiling 0 0 0) ∧ decodeTableWord 32 3 = some (.muldivFloor 0 0 0) ∧
    decodeTableWord 32 4 = some (.muldivHalfUp 0 0 0) ∧ decodeTableWord 32 5 = some (.muldivHalfDown 0 0 0) ∧
    decodeTableWord 32 6 = some (.muldivHalfEven 0 0 0) ∧ decodeTableWord 32 7 = some (.muldivUnnecessary 0 0 0) ∧
    decodeTableWord 32 8 = some (.muldivDefault 8 0 0 0) := by decide

/-- The operands of a table word are 0, so its first outcome after reset is `DivideByZero` (40_datapath.md R46). -/
theorem test_table_word_runs_first : Sys2Proof.core.step (State.reset.withFetchWord 32 4) =
    .next { State.reset with presented := some (.err .divideByZero) } := rfl

/-! ### The nine variants -/

theorem test_up : presents (.muldivUp (-7) 3 2) = some (.ok (-11)) ∧ presents (.muldivUp (-7) 3 (-2)) = some (.ok 9) := by decide
theorem test_up_wraps : presents (.muldivUp 9223372036854775807 3 2) = some (.ok (-4611686018427387905)) := by decide
theorem test_down : presents (.muldivDown (-7) 3 2) = some (.ok (-10)) := by decide
theorem test_down_narrows_after_the_division : presents (.muldivDown 9223372036854775807 2 1) = some (.ok 0xFFFFFFFFFFFFFFFE) := by decide
theorem test_ceiling : presents (.muldivCeiling (-7) 3 2) = some (.ok (-10)) := by decide
theorem test_ceiling_negative_divisor : presents (.muldivCeiling 9223372036854775807 9223372036854775807 (-9223372036854775808)) =
    some (.ok (-9223372036854775805)) := by decide
theorem test_floor : presents (.muldivFloor (-7) 3 2) = some (.ok (-11)) := by decide
theorem test_floor_negative_divisor : presents (.muldivFloor 8 1 (-3)) = some (.ok (-2)) := by decide
theorem test_half_up_at_the_shifted_threshold : presents (.muldivHalfUp 4 1 3) = some (.ok 2) := by decide
theorem test_half_up_negative_odd_divisor : presents (.muldivHalfUp (-1) 1 (-3)) = some (.ok (-1)) := by decide
theorem test_half_down_at_the_shifted_threshold : presents (.muldivHalfDown 4 1 3) = some (.ok 1) := by decide
theorem test_half_down_beyond_the_threshold : presents (.muldivHalfDown (-7) 1 4) = some (.ok (-2)) := by decide
theorem test_half_even_negative_tie : presents (.muldivHalfEven (-3) 1 2) = some (.ok (-2)) := by decide
theorem test_half_even_even_quotient_stays : presents (.muldivHalfEven (-5) 1 2) = some (.ok (-2)) := by decide
theorem test_unnecessary_exact : presents (.muldivUnnecessary 9223372036854775807 9223372036854775807 9223372036854775807) =
    some (.ok 9223372036854775807) := by decide
theorem test_unnecessary_inexact : presents (.muldivUnnecessary 7 3 2) = some (.err .roundingUnnecessaryViolation) ∧
    presents (.muldivUnnecessary 0 0 0) = some (.err .divideByZero) := by decide
theorem test_default : presents (.muldivDefault 256 7 3 2) = some (.ok 10) := by decide
theorem test_default_zero_divisor : presents (.muldivDefault 4294967295 5 5 0) = some (.err .divideByZero) := by decide

/-! ### The stages: the extreme rows of the M and D vectors -/

theorem test_mul128 : mul128 0x8000000000000000 0x8000000000000000 = 0x40000000000000000000000000000000 ∧
    mul128 0x8000000000000000 0x7FFFFFFFFFFFFFFF = 0xC0000000000000008000000000000000 ∧
    mul128 1 (-1) = 0xFFFFFFFFFFFFFFFFFFFFFFFFFFFFFFFF := by decide
theorem test_div128 : (∀ h, div128 (BitVec.ofInt 128 (2 ^ 126)) 0x7FFFFFFFFFFFFFFF h = (9223372036854775809, 1)) ∧
    (∀ h, div128 3 (-7) h = (0, 3)) ∧ (∀ h, div128 (-3) 7 h = (0, -3)) := by decide

/-! ### Responses and their readers -/

theorem test_response_words : encodeResponse (.ok 11) = 0x0000000000000000B ∧ encodeResponse (.ok (-2)) = 0x0FFFFFFFFFFFFFFFE ∧
    encodeResponse (.err .roundingUnnecessaryViolation) = 0x10000000000000000 ∧
    encodeResponse (.err .divideByZero) = 0x20000000000000000 := by decide
theorem test_reading_without_a_response_faults : readStatus State.reset = .error .noResponsePresented ∧
    readResult { State.reset with presented := some (.err .divideByZero) } = .error .errorHasNoResult := by decide

/-! ### Instants -/

/-- The request of vector E1. -/
def e1 : HostInput := .issue 0x00000004000000000000000200000000000000030000000000000007

/-- The first request of program 3. -/
def byZero : HostInput := .issue 0x00000007000000000000000000000000000000030000000000000007

theorem test_latency_zero_answers_at_once :
    outputs 0 3 { State.reset with inputs := [e1, .quiet, byZero] } = [some (.ok 11), none, some (.err .divideByZero)] := by decide
theorem test_latency_two_keeps_order :
    outputs 2 5 { State.reset with inputs := [byZero, e1] } = [none, none, some (.err .divideByZero), some (.ok 11), none] := by decide
theorem test_reset_discards :
    outputs 2 6 { State.reset with inputs := [byZero, .reset, e1] } = [none, none, none, none, some (.ok 11), none] := by decide

/-! ### The assembler's syntax -/

theorem test_parse_named : parseLine "MULDIV.HALF_UP 7, 3, 2".toList = some (.named 4 (.dec 7) (.dec 3) (.dec 2)) := by decide
theorem test_parse_raw : parseLine "MULDIV #256, -7, 0xFFFFFFFFFFFFFFFF, 2 ; x".toList =
    some (.raw 256 (.dec (-7)) (.hex 0xFFFFFFFFFFFFFFFF) (.dec 2)) := by decide
theorem test_print : printLine (disassemble ⟨-7, 3, 2, 3⟩) = "MULDIV.FLOOR -7, 3, 2".toList ∧
    printLine (disassemble ⟨7, 3, 2, 256⟩) = "MULDIV #256, 7, 3, 2".toList ∧ printResponse (.ok (-11)) = "Ok(-11)".toList := by decide
theorem test_operand_ranges : operandValue (.dec 9223372036854775808) = none ∧
    operandValue (.dec (-9223372036854775808)) = some 0x8000000000000000 ∧ operandValue (.hex 0x10000000000000000) = none := by decide

/-! ### Witnesses: concrete values that meet the hypotheses of each statement -/

/-- The request word with these fields. -/
def wordOf (mode : ModeWord) : RequestWord := mode ++ (2 : Word64) ++ (3 : Word64) ++ (7 : Word64)

theorem witness_mode_fields : (wordOf 0).extractLsb' 192 32 = 0 ∧ (wordOf 1).extractLsb' 192 32 = 1 ∧
    (wordOf 2).extractLsb' 192 32 = 2 ∧ (wordOf 3).extractLsb' 192 32 = 3 ∧ (wordOf 4).extractLsb' 192 32 = 4 ∧
    (wordOf 5).extractLsb' 192 32 = 5 ∧ (wordOf 6).extractLsb' 192 32 = 6 ∧ (wordOf 7).extractLsb' 192 32 = 7 ∧
    (wordOf 8).extractLsb' 195 29 ≠ 0 ∧ (wordOf 0xFFFFFFFF).extractLsb' 195 29 ≠ 0 := by decide

/-- For the direction clauses of UP, CEILING and FLOOR and the parts of HalfModesRoundToNearest: a positive divisor, even and
odd, the smallest and the largest, with products of both signs. -/
theorem witness_inexact_positive_divisor : (Inexact 7 3 2 ∧ 0 < (2 : Word64).toInt ∧ 0 < prod 7 3 ∧ (2 : Word64).toInt % 2 = 0) ∧
    (Inexact (-7) 3 2 ∧ prod (-7) 3 < 0) ∧
    (Inexact 1 1 0x7FFFFFFFFFFFFFFF ∧ 0 < (0x7FFFFFFFFFFFFFFF : Word64).toInt ∧ (0x7FFFFFFFFFFFFFFF : Word64).toInt % 2 = 1) := by decide

/-- A tie, for the tie clauses of HalfModesRoundToNearest: 5/2. -/
theorem witness_tie : Inexact 5 1 2 ∧ 2 * ((3 : Int) * (2 : Word64).toInt - prod 5 1).natAbs = (2 : Word64).toInt.natAbs ∧
    2 * ((2 : Int) * (2 : Word64).toInt - prod 5 1).natAbs = (2 : Word64).toInt.natAbs := by decide

/-- For HALF_EVEN's clause: the remainder at the threshold, on both sides, with an odd and an even quotient. -/
theorem witness_remainder_at_threshold :
    (Inexact 4 1 3 ∧ (prod 4 1).tmod (3 : Word64).toInt = (3 : Word64).toInt / 2 ∧ 0 ≤ prod 4 1) ∧
    (Inexact (-3) 1 2 ∧ (prod (-3) 1).tmod (2 : Word64).toInt = -((2 : Word64).toInt / 2) ∧ ¬ 0 ≤ prod (-3) 1) ∧
    (Inexact 5 1 2 ∧ (prod 5 1).tmod (2 : Word64).toInt = (2 : Word64).toInt / 2 ∧ (prod 5 1).tdiv (2 : Word64).toInt % 2 = 0) := by decide

/-- For HALF_UP's clause and NegativeDivisorsFollowTheFormulas: a negative divisor, the nearest to zero and the farthest. -/
theorem witness_inexact_negative_divisor : (Inexact 7 3 (-2) ∧ (-2 : Word64).toInt < 0 ∧ 0 < prod 7 3) ∧
    (Inexact (-7) 3 (-2) ∧ prod (-7) 3 < 0) ∧
    (Inexact 1 1 0x8000000000000000 ∧ (0x8000000000000000 : Word64).toInt < 0 ∧ 0 < prod 1 1) := by decide

/-- For every clause that takes a nonzero divisor, at the boundary values. -/
theorem witness_nonzero_divisors : sval (1 : Word64) ≠ 0 ∧ sval (-1 : Word64) ≠ 0 ∧ sval (0x8000000000000000 : Word64) ≠ 0 ∧
    (0x8000000000000000 : Word64) ≠ 0 ∧ 2 ≤ (2 : Word64).toInt.natAbs ∧ (1 : Word64).toInt ≠ 0 := by decide

theorem witness_well_formed : (Instr.muldivUp 7 3 2).wellFormed = true ∧ (Instr.muldivDefault 8 7 3 2).wellFormed = true ∧
    (Instr.muldivDefault 0xFFFFFFFF 7 3 2).wellFormed = true := by decide

theorem witness_modes : (0 : ModeWord).toNat = 0 ∧ (1 : ModeWord).toNat = 1 ∧ (2 : ModeWord).toNat = 2 ∧ (3 : ModeWord).toNat = 3 ∧
    (4 : ModeWord).toNat = 4 ∧ (5 : ModeWord).toNat = 5 ∧ (6 : ModeWord).toNat = 6 ∧ (7 : ModeWord).toNat = 7 ∧
    8 ≤ (8 : ModeWord).toNat ∧ 8 ≤ (0xFFFFFFFF : ModeWord).toNat ∧ (7 : ModeWord).extractLsb' 3 29 = 0 := by decide

theorem witness_response_words : (Response.err .divideByZero).status ≠ 0 ∧
    readResult { State.reset with presented := some (.ok 11) } = .ok 11 ∧
    encodeResponse (.ok 11) = encodeResponse (.ok 11) ∧ (0x30000000000000000 : ResponseWord).extractLsb' 64 2 = 3 := by decide

/-- Products just outside 64 bits, on both sides. -/
theorem witness_product_outside_64_bits : 2 ^ 63 - 1 < (4611686018427387904 : Word64).toInt * (2 : Word64).toInt ∧
    (3074457345618258603 : Word64).toInt * (-3 : Word64).toInt < -2 ^ 63 := by decide

/-- The lowest dividend the divider's statements admit, and one smaller than its divisor. -/
theorem witness_dividend : -2 ^ 127 < (BitVec.ofInt 128 (-2 ^ 127 + 1)).toInt ∧ sval (-1 : Word64) ≠ 0 ∧
    -2 ^ 127 < (3 : Wide).toInt ∧ (3 : Wide).toInt.natAbs < (7 : Word64).toInt.natAbs ∧ sval (7 : Word64) ≠ 0 := by decide

theorem witness_nonzero_remainder : ∃ h, (div128 (mul128 (-7) 3) 2 h).2.toInt ≠ 0 := ⟨by decide, by decide⟩

/-- A quotient at the end of the range, one just beyond it, and an error. -/
theorem witness_selected : selected (decodeRequest ⟨9223372036854775807, 1, 1, 1⟩) = .ok (2 ^ 63 - 1) ∧
    selected (decodeRequest ⟨0x8000000000000000, -1, 1, 1⟩) = .ok (2 ^ 63) ∧
    selected (decodeRequest ⟨7, 3, 2, 7⟩) = .error .roundingUnnecessaryViolation := by decide

theorem witness_in_range : InRange ⟨9223372036854775807, 1, 1, 1⟩ := by
  intro q h
  rw [witness_selected.1] at h
  cases h
  decide

theorem witness_out_of_range : ¬ InRange ⟨0x8000000000000000, -1, 1, 1⟩ := fun h =>
  absurd (h _ witness_selected.2.1).2 (by decide)

/-- One request for each clause of the priority statement, and an exact one with a zero operand. -/
theorem witness_outcomes : (0 : Word64) = 0 ∧ ((5 : Word64) ≠ 0 ∧ (prod 5 5).tmod (5 : Word64).toInt = 0) ∧
    ((2 : Word64) ≠ 0 ∧ (prod 7 3).tmod (2 : Word64).toInt ≠ 0 ∧ (7 : ModeWord) = 7 ∧ (6 : ModeWord) ≠ 7 ∧ (8 : ModeWord) ≠ 7) ∧
    ((1 : Word64) ≠ 0 ∧ (prod 0 9).tmod (7 : Word64).toInt = 0) := by decide

/-- A request due and another one instant behind it. -/
def flying (inputs : List HostInput) : State :=
  { inFlight := [⟨⟨7, 3, 2, 4⟩, 0⟩, ⟨⟨7, 3, 2, 7⟩, 1⟩], presented := none, inputs := inputs }

theorem witness_due_request : (flying []).inFlight.head? = some ⟨⟨7, 3, 2, 4⟩, 0⟩ ∧ (flying []).inputs = [] ∧
    (flying [.quiet]).inputs.head? = some .quiet ∧ (flying [e1]).inputs.head? = some e1 ∧
    decodeRequest ⟨7, 3, 2, 4⟩ = .muldivHalfUp 7 3 2 := by decide

theorem witness_table_word : decodeTableWord 32 4 = some (.muldivHalfUp 0 0 0) ∧
    decodeTableWord 224 0x00000004000000000000000200000000000000030000000000000007 = some (.muldivHalfUp 7 3 2) := by decide

theorem witness_request_waits : ({ State.reset with inputs := [e1] } : State).inputs.head? = some e1 ∧ (1 : Nat) ≠ 0 ∧
    (∀ f, ({ State.reset with inputs := [e1] } : State).inFlight.head? = some f → f.remaining ≠ 0) ∧
    State.reset.inFlight = [] := ⟨rfl, by decide, by simp, rfl⟩

theorem witness_reset_input : (flying [.reset]).inputs.head? = some .reset := by decide

theorem witness_presented : State.reset.presented = none ∧
    ({ State.reset with presented := some (.err .divideByZero) } : State).presented = some (.err .divideByZero) ∧
    ({ State.reset with presented := some (.ok 11) } : State).presented = some (.ok 11) := by decide

theorem witness_instant_next : instant 2 (flying []) =
    .next { inFlight := [⟨⟨7, 3, 2, 7⟩, 0⟩], presented := some (.ok 11), inputs := [] } := rfl

theorem witness_scheduled : Scheduled 2 (flying [e1, .quiet]) ∧ ⟨⟨7, 3, 2, 7⟩, 1⟩ ∈ (flying [e1, .quiet]).inFlight ∧
    .reset ∉ (flying [e1, .quiet]).inputs.take 2 ∧ .reset ∉ (flying [e1, .quiet]).inputs ∧
    (flying [e1, .quiet]).inputs.length + 2 ≤ 4 := by
  refine ⟨⟨?_, ?_⟩, ?_, ?_, ?_, ?_⟩ <;> simp [flying, e1]

theorem witness_caller_contract : CallerNeverDividesByZero (flying [e1]) := by
  refine ⟨?_, ?_, ?_⟩
  · simp [flying]
  · intro w hw
    simp only [flying, e1, List.mem_singleton, HostInput.issue.injEq] at hw
    subst hw
    decide
  · simp [flying]

theorem witness_instances : ∃ cores, stepInstance 0 [State.reset, flying []] = some cores := ⟨_, rfl⟩

end Sys2Proof.Tests
end

namespace Sys2Proof.Machine

/-- Every instruction presents the response to what it selects and keeps every other part of the state
(10_state.md R16). -/
theorem exec_presents_responseOf (i : Instr) (s : State) :
    exec i s = .next { s with presented := some (responseOf (selected i)) } := by
  rw [exec_eq_deliver, deliver_eq]

/-- Settles O39: the response is the one to what the instruction selects, which no state enters. -/
theorem everyInstructionOnlyPresentsItsResponse : Obligations.EveryInstructionOnlyPresentsItsResponse :=
  fun i => ⟨responseOf (selected i), exec_presents_responseOf i⟩

end Sys2Proof.Machine

/-! ### The encoding (30_encoding.md) -/

namespace Sys2Proof

/-- Decoding a packed request reads no more than its fields. -/
@[simp] theorem decode_pack (r : Request) : decode (pack r) = decodeRequest r := by
  rw [decode, unpack_pack]

/-- Each bit of four fields side by side is a bit of one of them. -/
theorem append_fields_getLsbD (r : Request) (i : Nat) : (r.mode ++ r.c ++ r.b ++ r.a).getLsbD i =
    if i < 64 then r.a.getLsbD i
    else if i < 128 then r.b.getLsbD (i - 64)
    else if i < 192 then r.c.getLsbD (i - 128)
    else r.mode.getLsbD (i - 192) := by
  have hb : i - 64 < 64 ↔ i < 128 := by omega
  have hc : i - 128 < 64 ↔ i < 192 := by omega
  rw [BitVec.getLsbD_append, BitVec.getLsbD_append, BitVec.getLsbD_append]
  simp only [Nat.sub_sub, Nat.reduceAdd, hb, hc]

/-- The request word is its four fields side by side, the mode highest (30_encoding.md R35). -/
theorem pack_eq_append (r : Request) : pack r = r.mode ++ r.c ++ r.b ++ r.a :=
  BitVec.eq_of_getLsbD_eq fun i _ => (pack_getLsbD r i).trans (append_fields_getLsbD r i).symm

/-- Settles O10: `unpack` reads at the positions of R35 by definition, and a packed word is the fields side by side. -/
theorem requestFieldsSitWhereTheFormatPutsThem : Obligations.RequestFieldsSitWhereTheFormatPutsThem :=
  ⟨fun _ => rfl, pack_eq_append⟩

/-- A mode value of 8 or above selects the default variant, which keeps it (30_encoding.md R39). -/
theorem decodeRequest_of_unrecognised {r : Request} (h : 8 ≤ r.mode.toNat) :
    decodeRequest r = .muldivDefault r.mode r.a r.b r.c := by
  unfold decodeRequest
  split
  case h_9 => rfl
  all_goals omega

/-- Mode 1 selects DOWN (30_encoding.md R39). -/
theorem decodeRequest_of_mode_one (a b c : Word64) : decodeRequest ⟨a, b, c, 1⟩ = .muldivDown a b c := rfl

/-- Unrecognised mode values are those of 8 and above (30_encoding.md R39). -/
theorem unrecognisedMode_iff {m : ModeWord} : unrecognisedMode m = true ↔ 8 ≤ m.toNat := decide_eq_true_iff

/-- The decoder produces only instructions that some request encodes: the default variant gets no named mode value. -/
theorem wellFormed_decodeRequest (r : Request) : (decodeRequest r).wellFormed = true := by
  unfold decodeRequest
  split
  case h_9 =>
    have hmode : 8 ≤ r.mode.toNat := by grind
    exact unrecognisedMode_iff.2 hmode
  all_goals rfl

/-- A request is its operands with the mode value it holds. -/
theorem request_eq_of_mode {r : Request} {k : Nat} (h : r.mode.toNat = k) : ⟨r.a, r.b, r.c, BitVec.ofNat 32 k⟩ = r := by
  rw [← h, BitVec.ofNat_toNat, BitVec.setWidth_eq]

/-- Decoding loses no field: the instruction encodes back to the request it came from. -/
theorem encodeRequest_decodeRequest (r : Request) : encodeRequest (decodeRequest r) = r := by
  unfold decodeRequest
  split
  case h_9 => rfl
  all_goals exact request_eq_of_mode ‹_›

/-- Every request word is the encoding of the instruction it decodes to. -/
theorem encode_decode (w : RequestWord) : encode (decode w) = w := by
  rw [encode, decode, encodeRequest_decodeRequest, pack_unpack]

/-- Settles O12: the decoder rejects nothing and loses nothing, and every instruction presents a response. -/
theorem everyRequestWordIsLegal : Obligations.EveryRequestWordIsLegal := fun w =>
  ⟨wellFormed_decodeRequest (unpack w), encode_decode w, fun s => ⟨_, Machine.exec_presents_responseOf (decode w) s⟩⟩

/-- The upper 29 bits of a mode value are zero exactly for the eight named ones (30_encoding.md R39). -/
theorem mode_upper_eq_zero_iff (m : ModeWord) : m.extractLsb' 3 29 = 0 ↔ m.toNat < 8 := by
  rw [← BitVec.toNat_inj, BitVec.extractLsb'_toNat, Nat.shiftRight_eq_div_pow]
  change m.toNat / 8 % 536870912 = 0 ↔ _
  omega

/-- A named mode value is its lowest three bits (30_encoding.md R39). -/
theorem mode_toNat_eq_lower {m : ModeWord} (h : m.toNat < 8) : m.toNat = (m.extractLsb' 0 3).toNat := by
  rw [BitVec.extractLsb'_toNat, Nat.shiftRight_zero, Nat.mod_eq_of_lt h]

/-- Settles O13: the clauses for 0 to 7 are the decoder's arms; the mode field splits at bit 3. -/
theorem modeFieldSelectsTheVariant : Obligations.ModeFieldSelectsTheVariant := by
  intro r
  rw [decode_pack]
  refine ⟨?_, ?_, ?_, ?_, ?_, ?_, ?_, ?_, decodeRequest_of_unrecognised, mode_upper_eq_zero_iff r.mode,
    fun h => mode_toNat_eq_lower ((mode_upper_eq_zero_iff r.mode).1 h)⟩
  all_goals
    intro h
    simp only [decodeRequest, h]

end Sys2Proof

namespace Sys2Proof.Machine

/-- A variant whose mux raises no error selects a quotient whenever the divisor is not zero. -/
theorem exists_select_ok {adjust : Adjust} (hadjust : ∀ p q r c, ∃ x, adjust p q r c = .ok x) (a b : Word64) {c : Word64}
    (hc : sval c ≠ 0) : ∃ q, select adjust a b c = .ok q := by
  by_cases hr : sval (div128 (mul128 a b) c hc).2 = 0
  · exact ⟨_, select_exact adjust a b hc hr⟩
  · rw [select_inexact adjust a b hc hr]
    exact hadjust _ _ _ _

/-- A selected quotient is presented as `Ok` with its low 64 bits (40_datapath.md R49). -/
theorem exec_of_selected_ok {i : Instr} {q : Int} (h : selected i = .ok q) (s : State) :
    exec i s = .next { s with presented := some (.ok (bits 64 q)) } := by
  rw [exec_presents_responseOf, h]
  rfl

/-- The default variant selects what DOWN selects (43_rounding.md R75). -/
theorem selected_muldivDefault (m : ModeWord) (a b c : Word64) :
    selected (.muldivDefault m a b c) = selected (.muldivDown a b c) := rfl

/-- Settles O14: such a mode selects the default variant, which selects the quotient DOWN does. -/
theorem unrecognisedModesAreNoError : Obligations.UnrecognisedModesAreNoError := by
  intro r s hmode
  rw [decode_pack, decode_pack, decodeRequest_of_unrecognised hmode, decodeRequest_of_mode_one]
  refine ⟨?_, fun hc => ?_⟩
  · rw [exec_presents_responseOf, exec_presents_responseOf, selected_muldivDefault]
  · obtain ⟨q, hq⟩ := exists_select_ok (adjust := adjustDefault) (fun _ q _ _ => ⟨sval q, rfl⟩) r.a r.b
      (mt sval_eq_zero.1 hc)
    exact ⟨_, exec_of_selected_ok (i := .muldivDefault r.mode r.a r.b r.c) hq s⟩

/-- The upper two bits of a response word are its status (30_encoding.md R36). -/
@[simp] theorem encodeResponse_status (r : Response) : (encodeResponse r).extractLsb' 64 2 = r.status :=
  BitVec.extractLsb'_append_eq_left

/-- The lower 64 bits of a response word are its `y` field (30_encoding.md R36). -/
@[simp] theorem encodeResponse_yField (r : Response) : (encodeResponse r).extractLsb' 0 64 = r.yField :=
  BitVec.extractLsb'_append_eq_right

/-- Under an error the `y` field is the filler (30_encoding.md R36). -/
theorem yField_eq_zero_of_status_ne_zero {r : Response} (h : r.status ≠ 0) : r.yField = 0 := by
  cases r with
  | ok y => exact absurd rfl h
  | err kind => rfl

/-- A consumer reads a result exactly when `Ok` with that result is presented (30_encoding.md R36). -/
theorem readResult_eq_ok_iff {s : State} {y : Word64} : readResult s = .ok y ↔ s.presented = some (.ok y) := by
  unfold readResult
  split <;> simp [*]

/-- The status read is that of the response presented. -/
theorem readStatus_of_presented {s : State} {r : Response} (h : s.presented = some r) : readStatus s = .ok r.status := by
  rw [readStatus, h]

/-- Settles O16: the word is the status before the `y` field, and a result is read only from a presented `Ok`. -/
theorem responseWordCarriesStatusAndResult : Obligations.ResponseWordCarriesStatusAndResult := by
  refine ⟨fun _ => rfl, fun _ => rfl, fun r => ⟨encodeResponse_status r, fun h => ?_⟩, fun s y h => ?_⟩
  · rw [encodeResponse_yField, yField_eq_zero_of_status_ne_zero h]
  · exact readStatus_of_presented (readResult_eq_ok_iff.1 h)

end Sys2Proof.Machine

/-! ### The datapath (40_datapath.md): the sequencer, the stages and the narrowing -/

namespace Sys2Proof.Machine

open Sys2Proof.Claims

/-- The mux step of each variant (43_rounding.md R65). -/
def muxStep : Instr → Adjust
  | .muldivUp _ _ _ => adjustUp
  | .muldivDown _ _ _ => adjustDown
  | .muldivCeiling _ _ _ => adjustCeiling
  | .muldivFloor _ _ _ => adjustFloor
  | .muldivHalfUp _ _ _ => adjustHalfUp
  | .muldivHalfDown _ _ _ => adjustHalfDown
  | .muldivHalfEven _ _ _ => adjustHalfEven
  | .muldivUnnecessary _ _ _ => adjustUnnecessary
  | .muldivDefault _ _ _ _ => adjustDefault

/-- Every variant is the one sequencer on its operands, with its own mux step. -/
theorem selected_eq_select (i : Instr) :
    selected i = select (muxStep i) (encodeRequest i).a (encodeRequest i).b (encodeRequest i).c := by
  cases i <;> rfl

/-- The mode value of a request enters its operation through the mux alone (40_datapath.md R51). -/
theorem selected_decodeRequest (r : Request) :
    selected (decodeRequest r) = select (muxStep (decodeRequest r)) r.a r.b r.c := by
  rw [selected_eq_select, encodeRequest_decodeRequest]

/-- A zero divisor raises `DivideByZero`, whatever the operands and the mode (40_datapath.md R46). -/
theorem selected_of_zero_divisor {r : Request} (hc : r.c = 0) : selected (decodeRequest r) = .error .divideByZero := by
  rw [selected_decodeRequest, select_zero _ _ _ (sval_eq_zero.2 hc)]

/-- A zero divisor presents `DivideByZero` and changes nothing else (40_datapath.md R46). -/
theorem exec_of_zero_divisor {r : Request} (hc : r.c = 0) (s : State) :
    exec (decodeRequest r) s = .next { s with presented := some (.err .divideByZero) } := by
  rw [exec_presents_responseOf, selected_of_zero_divisor hc]
  rfl

/-- Settles O33: the divisor check comes before the mux, so no mode value enters. -/
theorem zeroDivisorRaisesForEveryVariant : Obligations.ZeroDivisorRaisesForEveryVariant :=
  fun _ _ _ => exec_of_zero_divisor rfl

/-- The product of two operands is at most `2^126` in magnitude (41_multiplier.md R55). -/
theorem natAbs_prod_le (a b : Word64) : (prod a b).natAbs ≤ 2 ^ 126 := by
  have ha : (sval a).natAbs ≤ 2 ^ 63 := by have := sval_range64 a; omega
  have hb : (sval b).natAbs ≤ 2 ^ 63 := by have := sval_range64 b; omega
  calc (prod a b).natAbs = (sval a).natAbs * (sval b).natAbs := Int.natAbs_mul _ _
    _ ≤ 2 ^ 63 * 2 ^ 63 := Nat.mul_le_mul ha hb

/-- The multiplier holds the product itself (41_multiplier.md R53). -/
@[simp] theorem sval_mul128 (a b : Word64) : sval (mul128 a b) = prod a b := by
  have := natAbs_prod_le a b
  exact sval_bits (n := 127) (i := prod a b) (by omega) (by omega)

/-- The divider's quotient is the truncated one, for a dividend above the most negative (42_divider.md R57, R61). -/
theorem sval_div128_fst {p : Wide} {c : Word64} (hc : sval c ≠ 0) (hp : -2 ^ 127 < sval p) :
    sval (div128 p c hc).1 = (sval p).tdiv (sval c) := by
  have hlt : sval p < 2 ^ 127 := BitVec.toInt_lt
  have hle := Int.natAbs_tdiv_le_natAbs (sval p) (sval c)
  exact sval_bits (n := 127) (i := (sval p).tdiv (sval c)) (by omega) (by omega)

/-- The divider's remainder is the one of the truncated quotient (42_divider.md R57). -/
theorem sval_div128_snd (p : Wide) {c : Word64} (hc : sval c ≠ 0) :
    sval (div128 p c hc).2 = (sval p).tmod (sval c) := by
  have hlt := natAbs_trem_lt (sval p) hc
  have hrange := sval_range64 c
  rw [← trem_eq_tmod]
  exact sval_bits (n := 127) (i := trem (sval p) (sval c)) (by omega) (by omega)

/-- The quotient of a request is the truncated quotient of its product (42_divider.md R61). -/
theorem sval_quotient (a b : Word64) {c : Word64} (hc : sval c ≠ 0) :
    sval (div128 (mul128 a b) c hc).1 = (prod a b).tdiv (sval c) := by
  have hp := natAbs_prod_le a b
  rw [sval_div128_fst hc (by rw [sval_mul128]; omega), sval_mul128]

/-- The remainder of a request is the truncated remainder of its product (42_divider.md R58). -/
theorem sval_remainder (a b : Word64) {c : Word64} (hc : sval c ≠ 0) :
    sval (div128 (mul128 a b) c hc).2 = (prod a b).tmod (sval c) := by
  rw [sval_div128_snd, sval_mul128]

/-- An exact division selects its quotient, whatever the mux step (40_datapath.md R47). -/
theorem select_of_exact (adjust : Adjust) {a b c : Word64} (hc : sval c ≠ 0) (hr : (prod a b).tmod (sval c) = 0) :
    select adjust a b c = .ok ((prod a b).tdiv (sval c)) := by
  rw [select_exact _ _ _ hc ((sval_remainder a b hc).trans hr), sval_quotient]

/-- An inexact division selects what the mux step gives (40_datapath.md R48). -/
theorem select_of_inexact (adjust : Adjust) {a b c : Word64} (h : Inexact a b c) :
    select adjust a b c = adjust (mul128 a b) (div128 (mul128 a b) c h.1).1 (div128 (mul128 a b) c h.1).2 c :=
  select_inexact _ _ _ h.1 ((sval_remainder a b h.1).trans_ne h.2)

/-- An exact division presents its narrowed quotient and changes nothing else (40_datapath.md R47). -/
theorem exec_of_exact {r : Request} (hc : sval r.c ≠ 0) (hr : (prod r.a r.b).tmod (sval r.c) = 0) (s : State) :
    exec (decodeRequest r) s = .next { s with presented := some (narrowed ((prod r.a r.b).tdiv (sval r.c))) } :=
  exec_of_selected_ok ((selected_decodeRequest r).trans (select_of_exact _ hc hr)) s

/-- A zero operand gives a zero product. -/
theorem prod_eq_zero {a b : Word64} (h : a = 0 ∨ b = 0) : prod a b = 0 :=
  mul_eq_zero.2 (h.imp sval_eq_zero.2 sval_eq_zero.2)

/-- Settles O34: the exact path comes before the mux, and a zero product leaves no remainder and a zero quotient. -/
theorem exactDivisionsIgnoreTheMode : Obligations.ExactDivisionsIgnoreTheMode := by
  refine ⟨fun r s hc hr => exec_of_exact hc hr s, fun r s hc hab => ?_, fun _ => rfl⟩
  have hp := prod_eq_zero hab
  rw [exec_of_exact (mt sval_eq_zero.1 hc) (by rw [hp, Int.zero_tmod]), hp, Int.zero_tdiv]
  rfl

/-- The mux moves the quotient by at most one (43_rounding.md R65). -/
theorem natAbs_muxStep_sub_le_one {i : Instr} {p q r : Wide} {c : Word64} {x : Int} (h : muxStep i p q r c = .ok x) :
    (x - sval q).natAbs ≤ 1 := by
  have hodd := odd_cases q
  cases i <;>
    simp only [muxStep, adjustUp, adjustDown, adjustCeiling, adjustFloor, adjustHalfUp, adjustHalfDown, adjustHalfEven,
      adjustUnnecessary, adjustDefault, Except.ok.injEq, reduceCtorEq] at h <;>
    omega

/-- A remainder is smaller than its divisor (42_divider.md R58). -/
theorem natAbs_tmod_lt (x : Int) {y : Int} (hy : y ≠ 0) : (x.tmod y).natAbs < y.natAbs :=
  trem_eq_tmod x y ▸ natAbs_trem_lt x hy

/-- An inexact division has a divisor of magnitude two or more (43_rounding.md R65). -/
theorem two_le_natAbs_of_tmod_ne_zero {x y : Int} (hy : y ≠ 0) (h : x.tmod y ≠ 0) : 2 ≤ y.natAbs := by
  have := natAbs_tmod_lt x hy
  omega

/-- The quotient of an inexact division of a request is at most `2^125` in magnitude (43_rounding.md R65). -/
theorem natAbs_tdiv_le_of_inexact {a b c : Word64} (h : Inexact a b c) : ((prod a b).tdiv (sval c)).natAbs ≤ 2 ^ 125 := by
  obtain ⟨hc, hr⟩ := h
  rw [Int.natAbs_tdiv]
  calc (prod a b).natAbs / (sval c).natAbs ≤ 2 ^ 126 / 2 :=
      Nat.div_le_div (natAbs_prod_le a b) (two_le_natAbs_of_tmod_ne_zero hc hr) (by omega)
    _ = 2 ^ 125 := by norm_num

/-- Every selected quotient is at most `2^126` in magnitude (40_datapath.md R52): an exact one because the product is, an
inexact one because the divisor halves the product at least and the mux adds at most one. -/
theorem natAbs_selected_le {r : Request} (hc : sval r.c ≠ 0) {q : Int} (h : selected (decodeRequest r) = .ok q) :
    q.natAbs ≤ 2 ^ 126 := by
  rw [selected_decodeRequest] at h
  by_cases hr : (prod r.a r.b).tmod (sval r.c) = 0
  · rw [select_of_exact _ hc hr] at h
    cases h
    exact (Int.natAbs_tdiv_le_natAbs _ _).trans (natAbs_prod_le r.a r.b)
  · rw [select_of_inexact _ ⟨hc, hr⟩] at h
    have hmove := natAbs_muxStep_sub_le_one h
    have hquot := natAbs_tdiv_le_of_inexact ⟨hc, hr⟩
    rw [sval_quotient] at hmove
    omega

/-- Settles O30: each stage holds its integer, the quotients are bounded by the product and the remainder by the
divisor. -/
theorem noStageOverflows : Obligations.NoStageOverflows := by
  intro r hc
  have hp := natAbs_prod_le r.a r.b
  have hq := Int.natAbs_tdiv_le_natAbs (prod r.a r.b) r.c.toInt
  have hrem := natAbs_tmod_lt (prod r.a r.b) (y := r.c.toInt) hc
  have hrange : -2 ^ 63 ≤ r.c.toInt ∧ r.c.toInt < 2 ^ 63 := sval_range64 r.c
  refine ⟨by omega, by omega, sval_mul128 _ _, by omega, by omega, sval_quotient _ _ hc, sval_remainder _ _ hc,
    by omega, by omega, fun q h => ?_⟩
  have := natAbs_selected_le hc h
  omega

/-- The result is the low half of the 128-bit quotient (40_datapath.md R49). -/
theorem bits64_eq_low_half (q : Int) : bits 64 q = (BitVec.ofInt 128 q).extractLsb' 0 64 := by
  apply BitVec.eq_of_toNat_eq
  rw [bits, BitVec.extractLsb'_toNat, BitVec.toNat_ofInt, BitVec.toNat_ofInt]
  omega

/-- The narrowing wraps modulo `2^64` (40_datapath.md R49). -/
theorem dvd_sval_bits64_sub (q : Int) : (2 ^ 64 : Int) ∣ sval (bits 64 q) - q := by
  rw [sval, bits, BitVec.toInt_ofInt]
  exact Int.dvd_bmod_sub_self

/-- Settles O35: the presented result is the selected quotient in 64 bits, and one in range is held unchanged. -/
theorem resultIsTheLowHalfOfTheQuotient : Obligations.ResultIsTheLowHalfOfTheQuotient :=
  ⟨fun _ s q h => ⟨bits 64 q, exec_of_selected_ok h s, bits64_eq_low_half q, dvd_sval_bits64_sub q,
    fun lo hi => sval_bits (n := 63) lo (by omega), rfl⟩, fun _ => rfl⟩

/-- The narrowing keeps exactly the quotients in the 64-bit range (40_datapath.md R49). -/
theorem sval_bits64_eq_iff {q : Int} : sval (bits 64 q) = q ↔ -2 ^ 63 ≤ q ∧ q ≤ 2 ^ 63 - 1 := by
  constructor
  · intro h
    have := sval_range64 (bits 64 q)
    omega
  · rintro ⟨lo, hi⟩
    exact sval_bits (n := 63) lo (by omega)

/-- A request that selects a quotient is in range exactly when that quotient is (40_datapath.md R50). -/
theorem inRange_iff {r : Request} {q : Int} (h : selected (decodeRequest r) = .ok q) :
    InRange r ↔ -2 ^ 63 ≤ q ∧ q ≤ 2 ^ 63 - 1 := by
  simp only [InRange, h, Except.ok.injEq, forall_eq']

/-- Settles O36: the presented result is the selected quotient in 64 bits, which reads as that quotient exactly in
range. -/
theorem contractGivesTheTrueQuotient : Obligations.ContractGivesTheTrueQuotient :=
  fun _ s => ⟨fun hc => exec_of_zero_divisor hc s, fun _ q h =>
    ⟨bits 64 q, exec_of_selected_ok h s, (inRange_iff h).trans sval_bits64_eq_iff.symm, fun _ => rfl⟩⟩

end Sys2Proof.Machine

/-! ### The multiplier (41_multiplier.md) -/

namespace Sys2Proof.Machine

open Sys2Proof.Claims

/-- The order of the operands does not matter (41_multiplier.md R53). -/
theorem mul128_comm (a b : Word64) : mul128 a b = mul128 b a :=
  congrArg (bits 128) (Int.mul_comm (sval a) (sval b))

/-- A zero operand gives a zero product (41_multiplier.md R53). -/
theorem mul128_eq_zero {a b : Word64} (h : a = 0 ∨ b = 0) : mul128 a b = 0 :=
  sval_eq_zero.1 ((sval_mul128 a b).trans (prod_eq_zero h))

/-- With one factor not negative, the lowest product is the one of the two ends of the 64-bit range. -/
theorem lower_bound_le_mul_of_nonneg {x y : Int} (hx : -2 ^ 63 ≤ x) (hy : 0 ≤ y) (hy' : y < 2 ^ 63) :
    -2 ^ 126 + 2 ^ 63 ≤ x * y :=
  calc -2 ^ 126 + 2 ^ 63 ≤ -2 ^ 63 * y := by omega
    _ ≤ x * y := Int.mul_le_mul_of_nonneg_right hx hy

/-- No product lies below `-2^126 + 2^63` (41_multiplier.md R55): a product is negative only with one factor positive,
which is at most `2^63 - 1`. -/
theorem lower_bound_le_prod (a b : Word64) : -2 ^ 126 + 2 ^ 63 ≤ prod a b := by
  obtain ⟨ha, ha'⟩ := sval_range64 a
  obtain ⟨hb, hb'⟩ := sval_range64 b
  rcases le_total 0 (sval b) with hpos | hneg
  · exact lower_bound_le_mul_of_nonneg ha hpos hb'
  rcases le_total 0 (sval a) with hpos' | hneg'
  · exact (lower_bound_le_mul_of_nonneg hb hpos' ha').trans_eq (Int.mul_comm _ _)
  · have hprod : 0 ≤ prod a b := Int.mul_nonneg_of_nonpos_of_nonpos hneg' hneg
    omega

/-- Settles O19: the multiplier holds the product itself, which lies between the two bounds. -/
theorem multiplierIsExact : Obligations.MultiplierIsExact := by
  refine ⟨fun a b => ?_, fun _ => ⟨mul128_eq_zero (.inr rfl), mul128_eq_zero (.inl rfl)⟩, by decide⟩
  have hexact : (mul128 a b).toInt = prod a b := sval_mul128 a b
  have hlower := lower_bound_le_prod a b
  have hupper := natAbs_prod_le a b
  exact ⟨hexact, by omega, by omega, mul128_comm a b⟩

/-- A sign extension from 64 bits reads as a 64-bit integer. -/
theorem sval_signExtend_range64 (x : Word64) : -2 ^ 63 ≤ sval (x.signExtend 128) ∧ sval (x.signExtend 128) < 2 ^ 63 := by
  rw [sval, BitVec.toInt_signExtend_of_le (by omega)]
  exact sval_range64 x

/-- Settles O21: a sign-extended 64-bit word reads as a 64-bit integer, and the multiplier holds the product itself. -/
theorem narrowMultiplierWouldDiffer : Obligations.NarrowMultiplierWouldDiffer := by
  refine ⟨fun a b hout heq => ?_, by decide⟩
  have hexact : (mul128 a b).toInt = a.toInt * b.toInt := sval_mul128 a b
  have hnarrow : -2 ^ 63 ≤ (mul128 a b).toInt ∧ (mul128 a b).toInt < 2 ^ 63 := heq ▸ sval_signExtend_range64 (a * b)
  omega

end Sys2Proof.Machine

/-! ### The divider (42_divider.md) -/

namespace Sys2Proof.Machine

open Sys2Proof.Claims

/-- A dividend smaller than its divisor has the quotient zero (42_divider.md R57). -/
theorem tdiv_eq_zero_of_natAbs_lt {x y : Int} (h : x.natAbs < y.natAbs) : x.tdiv y = 0 :=
  Int.natAbs_eq_zero.1 ((natAbs_tdiv x y).trans (Nat.div_eq_of_lt h))

/-- A nonzero remainder has the sign of its dividend (42_divider.md R58). -/
theorem tmod_neg_iff {x y : Int} (h : x.tmod y ≠ 0) : x.tmod y < 0 ↔ x < 0 := by
  rw [← trem_eq_tmod] at h ⊢
  constructor
  · intro hneg
    by_contra hx
    exact absurd (trem_nonneg (not_lt.1 hx) y) (not_le.2 hneg)
  · intro hx
    exact lt_of_le_of_ne (trem_nonpos hx.le y) h

/-- A nonzero quotient has the sign of the product of its dividend and its divisor, so it is positive exactly when their
signs agree (42_divider.md R58). -/
theorem tdiv_pos_iff {x y : Int} (h : x.tdiv y ≠ 0) : 0 < x.tdiv y ↔ (x < 0 ↔ y < 0) := by
  have hx : x ≠ 0 := fun hx => h (by rw [hx, Int.zero_tdiv])
  have hy : y ≠ 0 := fun hy => h (by rw [hy, Int.tdiv_zero])
  have hsign : (x.tdiv y).sign = (x * y).sign := by
    rw [Int.sign_tdiv, if_neg fun hlt => h (tdiv_eq_zero_of_natAbs_lt hlt), Int.sign_mul]
  rw [← Int.sign_eq_one_iff_pos, hsign, Int.sign_eq_one_iff_pos, mul_pos_iff]
  omega

/-- A nonzero remainder of the divider has the sign of its dividend, whatever the divisor (42_divider.md R62). -/
theorem sval_div128_snd_neg_iff {p : Wide} {c : Word64} (hc : sval c ≠ 0) (hr : sval (div128 p c hc).2 ≠ 0) :
    sval (div128 p c hc).2 < 0 ↔ sval p < 0 := by
  rw [sval_div128_snd] at hr ⊢
  exact tmod_neg_iff hr

/-- Settles O23: the divider holds the truncated quotient and its remainder, so each clause is that of the integers. -/
theorem dividerTruncates : Obligations.DividerTruncates := by
  intro p c hc hp
  have hq : (div128 p c hc).1.toInt = p.toInt.tdiv c.toInt := sval_div128_fst hc hp
  have hr : (div128 p c hc).2.toInt = p.toInt.tmod c.toInt := sval_div128_snd p hc
  refine ⟨?_, ?_, or_iff_not_imp_left.2 (sval_div128_snd_neg_iff hc), or_iff_not_imp_left.2 fun h => ?_, ?_⟩
  · rw [hq, hr, Int.mul_tdiv_add_tmod]
  · rw [hr]
    exact natAbs_tmod_lt _ hc
  · rw [hq] at h ⊢
    exact tdiv_pos_iff h
  · rw [hq]
    exact natAbs_tdiv _ _

/-- The pattern of the integer a word stands for is the word (00_scope.md R11). -/
@[simp] theorem bits_sval {n : Nat} (v : BitVec n) : bits n (sval v) = v := BitVec.ofInt_toInt

/-- The divider's two results from the integer quotient (42_divider.md R57). -/
theorem div128_of_tdiv_eq {p : Wide} {c : Word64} (hc : sval c ≠ 0) {q : Int} (hq : (sval p).tdiv (sval c) = q) :
    div128 p c hc = (bits 128 q, bits 128 (sval p - sval c * q)) := by
  subst hq
  rfl

/-- A dividend smaller than the divisor is the remainder (42_divider.md R57). -/
theorem div128_of_natAbs_lt {p : Wide} {c : Word64} (hc : sval c ≠ 0) (h : (sval p).natAbs < (sval c).natAbs) :
    div128 p c hc = (0, p) := by
  rw [div128_of_tdiv_eq hc (tdiv_eq_zero_of_natAbs_lt h), Int.mul_zero, Int.sub_zero, bits_sval]
  rfl

/-- Dividing by one gives the dividend (42_divider.md R57). -/
theorem div128_one (p : Wide) (h : sval (1 : Word64) ≠ 0) : div128 p 1 h = (p, 0) := by
  have hone : sval (1 : Word64) = 1 := by decide
  rw [div128_of_tdiv_eq (q := sval p) h (by rw [hone, Int.tdiv_one]), hone, Int.one_mul, Int.sub_self, bits_sval]
  rfl

/-- Dividing by minus one gives the negated dividend (42_divider.md R57). -/
theorem div128_neg_one (p : Wide) (h : sval (-1 : Word64) ≠ 0) : div128 p (-1) h = (-p, 0) := by
  have hone : sval (-1 : Word64) = -1 := by decide
  have hneg : bits 128 (-sval p) = -p := by rw [bits, BitVec.ofInt_neg, BitVec.ofInt_toInt]
  rw [div128_of_tdiv_eq (q := -sval p) h (by rw [hone, Int.tdiv_neg, Int.tdiv_one]), hone, Int.neg_mul_neg, Int.one_mul,
    Int.sub_self, hneg]
  rfl

/-- Settles O22: the quotient fits for every dividend above the most negative one, and the corner cases are those of the
integer quotient. -/
theorem dividerGivesQuotientAndRemainder : Obligations.DividerGivesQuotientAndRemainder := by
  refine ⟨fun p c hc hp => ⟨sval_div128_fst hc hp, ?_, sval_div128_snd p hc, div128_of_natAbs_lt hc⟩,
    fun c hc => div128_of_natAbs_lt hc (Int.natAbs_pos.2 hc), div128_one, fun p h _ => div128_neg_one p h, by decide⟩
  exact (sval_div128_snd p hc).trans (trem_eq_tmod _ _).symm

/-- A word below `2^63` in magnitude is the sign extension of its low half (42_divider.md R60). -/
theorem eq_signExtend_low_half {w : Wide} (h : (sval w).natAbs < 2 ^ 63) :
    w = (w.extractLsb' 0 64).signExtend 128 := by
  obtain ⟨lo, hi⟩ : -2 ^ 63 ≤ sval w ∧ sval w < 2 ^ 63 := by omega
  have hlow : w.extractLsb' 0 64 = bits 64 (sval w) := by rw [bits64_eq_low_half, BitVec.ofInt_toInt]
  rw [← BitVec.toInt_inj, BitVec.toInt_signExtend_of_le (by omega), hlow]
  exact (sval_bits (n := 63) lo hi).symm

/-- A divisor of magnitude two or more halves the product at least (42_divider.md R60). -/
theorem natAbs_tdiv_prod_le (a b : Word64) {y : Int} (hy : 2 ≤ y.natAbs) : ((prod a b).tdiv y).natAbs ≤ 2 ^ 125 :=
  calc ((prod a b).tdiv y).natAbs = (prod a b).natAbs / y.natAbs := natAbs_tdiv _ _
    _ ≤ 2 ^ 126 / 2 := Nat.div_le_div (natAbs_prod_le a b) hy (by omega)
    _ = 2 ^ 125 := by norm_num

/-- Settles O24: the quotient is bounded by the product, the remainder by the divisor. -/
theorem dividerResultsStayInRange : Obligations.DividerResultsStayInRange := by
  intro a b c hc
  have hp : (mul128 a b).toInt = prod a b := sval_mul128 a b
  have hq : (div128 (mul128 a b) c hc).1.toInt = (prod a b).tdiv c.toInt := sval_quotient a b hc
  have hr : (div128 (mul128 a b) c hc).2.toInt.natAbs < c.toInt.natAbs :=
    (congrArg Int.natAbs (sval_remainder a b hc)).trans_lt (natAbs_tmod_lt _ hc)
  have hrange : -2 ^ 63 ≤ c.toInt ∧ c.toInt < 2 ^ 63 := sval_range64 c
  rw [hp, hq]
  exact ⟨Int.natAbs_tdiv_le_natAbs _ _, natAbs_prod_le a b, by omega, by omega,
    eq_signExtend_low_half (hr.trans_le (by omega)), natAbs_tdiv_prod_le a b⟩

/-- Settles O26: no product is as low as `-2^127`, and the quotient of any dividend above it fits. -/
theorem dividerNeverOverflows : Obligations.DividerNeverOverflows := by
  refine ⟨fun a b c hc => ?_, by decide⟩
  have hp : -2 ^ 127 < (mul128 a b).toInt := by
    have hexact : (mul128 a b).toInt = prod a b := sval_mul128 a b
    have hlower := lower_bound_le_prod a b
    omega
  exact ⟨hp, sval_div128_fst hc hp⟩

/-- Settles O25: the four rows are evaluated; for every request the remainder has the sign of the product. -/
theorem remainderSignFollowsTheDividend : Obligations.RemainderSignFollowsTheDividend :=
  ⟨by decide, by decide, by decide, by decide, fun _ _ _ => sval_div128_snd_neg_iff⟩

end Sys2Proof.Machine

/-! ### The rounding mux (43_rounding.md) -/

namespace Sys2Proof.Machine

open Sys2Proof.Claims

/-- `odd` is the integer's residue modulo two, whatever its sign (43_rounding.md R64). -/
theorem odd_eq_emod (q : Wide) : odd q = sval q % 2 := by
  have hbit : q.getLsbD 0 = true ↔ q.toNat % 2 = 1 := by
    rw [BitVec.getLsbD, Nat.testBit_zero, decide_eq_true_iff]
  have hlift : sval q % 2 = (q.toNat : Int) % 2 := by
    rw [sval, BitVec.toInt_eq_toNat_cond]
    split <;> omega
  rw [hlift, odd]
  split_ifs with h
  · have := hbit.1 h
    omega
  · have := mt hbit.2 h
    omega

/-- Settles O28: the two integers of one bit pattern differ by an even number, so the low bit is the parity of both. -/
theorem oddIsTheParityOfTheQuotient : Obligations.OddIsTheParityOfTheQuotient := by
  have hflag : ∀ bit : Bool, ((if bit then 1 else 0 : Int) = 1 ↔ bit = true) ∧
      ((if bit then 1 else 0 : Int) = 0 ↔ bit = false) := by decide
  exact fun q => ⟨odd_eq_emod q, hflag (q.getLsbD 0)⟩

/-- `H` is half the divisor, rounded toward minus infinity (43_rounding.md R63). -/
theorem threshold_eq (c : Word64) : threshold c = sval c / 2 := sval_asr1 c

/-- An inexact division has a product other than zero. -/
theorem prod_ne_zero_of_inexact {a b c : Word64} (h : Inexact a b c) : prod a b ≠ 0 :=
  fun hp => h.2 (by rw [hp, Int.zero_tmod])

/-- On the inexact path `pos` means a positive product (43_rounding.md R63). -/
theorem prod_nonneg_iff_pos {a b c : Word64} (h : Inexact a b c) : 0 ≤ prod a b ↔ 0 < prod a b := by
  have := prod_ne_zero_of_inexact h
  omega

/-- Settles O27: the shift halves the divisor, and a zero product leaves no remainder. -/
theorem muxReadsTheShiftedThreshold : Obligations.MuxReadsTheShiftedThreshold := by
  refine ⟨fun c => ?_, isPos_iff, fun a b c h => ?_⟩
  · have hH : threshold c = c.toInt / 2 := threshold_eq c
    have hNH : negThreshold c = -(c.toInt / 2) := congrArg Neg.neg hH
    obtain ⟨lo, hi⟩ : -2 ^ 63 ≤ c.toInt ∧ c.toInt < 2 ^ 63 := sval_range64 c
    exact ⟨hH, hNH, by omega, by omega⟩
  · have hexact : (mul128 a b).toInt = prod a b := sval_mul128 a b
    rw [hexact, isPos_iff, sval_mul128]
    exact prod_nonneg_iff_pos h

/-! #### What each variant selects, on the integers of the operands -/

section Selected

variable {a b c : Word64}

/-- UP moves by the sign of the product (43_rounding.md R66). -/
theorem selected_muldivUp (h : Inexact a b c) : selected (.muldivUp a b c) =
    .ok (if 0 ≤ prod a b then (prod a b).tdiv c.toInt + 1 else (prod a b).tdiv c.toInt - 1) := by
  rw [selected, select_of_inexact _ h, adjustUp]
  simp only [isPos_iff, sval_mul128, sval_quotient]

/-- DOWN selects the truncated quotient on both paths (43_rounding.md R67). -/
theorem selected_muldivDown (hc : c.toInt ≠ 0) : selected (.muldivDown a b c) = .ok ((prod a b).tdiv c.toInt) := by
  by_cases hr : (prod a b).tmod c.toInt = 0
  · exact select_of_exact _ hc hr
  · exact (select_of_inexact _ ⟨hc, hr⟩).trans (congrArg Except.ok (sval_quotient a b hc))

/-- CEILING moves up for a positive product (43_rounding.md R68). -/
theorem selected_muldivCeiling (h : Inexact a b c) : selected (.muldivCeiling a b c) =
    .ok (if 0 ≤ prod a b then (prod a b).tdiv c.toInt + 1 else (prod a b).tdiv c.toInt) := by
  rw [selected, select_of_inexact _ h, adjustCeiling]
  simp only [isPos_iff, sval_mul128, sval_quotient]

/-- FLOOR moves down for a negative product (43_rounding.md R69). -/
theorem selected_muldivFloor (h : Inexact a b c) : selected (.muldivFloor a b c) =
    .ok (if 0 ≤ prod a b then (prod a b).tdiv c.toInt else (prod a b).tdiv c.toInt - 1) := by
  rw [selected, select_of_inexact _ h, adjustFloor]
  simp only [isPos_iff, sval_mul128, sval_quotient]

/-- HALF_UP moves at the threshold and beyond (43_rounding.md R70). -/
theorem selected_muldivHalfUp (h : Inexact a b c) : selected (.muldivHalfUp a b c) =
    .ok (if 0 ≤ prod a b then
      (if c.toInt / 2 ≤ (prod a b).tmod c.toInt then (prod a b).tdiv c.toInt + 1 else (prod a b).tdiv c.toInt)
    else
      (if (prod a b).tmod c.toInt ≤ -(c.toInt / 2) then (prod a b).tdiv c.toInt - 1 else (prod a b).tdiv c.toInt)) := by
  rw [selected, select_of_inexact _ h, adjustHalfUp]
  simp only [isPos_iff, sval_mul128, sval_quotient, sval_remainder, negThreshold, threshold_eq]

/-- HALF_DOWN moves beyond the threshold only (43_rounding.md R71). -/
theorem selected_muldivHalfDown (h : Inexact a b c) : selected (.muldivHalfDown a b c) =
    .ok (if 0 ≤ prod a b then
      (if c.toInt / 2 < (prod a b).tmod c.toInt then (prod a b).tdiv c.toInt + 1 else (prod a b).tdiv c.toInt)
    else
      (if (prod a b).tmod c.toInt < -(c.toInt / 2) then (prod a b).tdiv c.toInt - 1 else (prod a b).tdiv c.toInt)) := by
  rw [selected, select_of_inexact _ h, adjustHalfDown]
  simp only [isPos_iff, sval_mul128, sval_quotient, sval_remainder, negThreshold, threshold_eq]

/-- HALF_EVEN moves beyond the threshold, and at it by the quotient's parity (43_rounding.md R72). -/
theorem selected_muldivHalfEven (h : Inexact a b c) : selected (.muldivHalfEven a b c) =
    .ok (if 0 ≤ prod a b then
      (if c.toInt / 2 < (prod a b).tmod c.toInt then (prod a b).tdiv c.toInt + 1
       else if (prod a b).tmod c.toInt < c.toInt / 2 then (prod a b).tdiv c.toInt
       else (prod a b).tdiv c.toInt + (prod a b).tdiv c.toInt % 2)
    else
      (if (prod a b).tmod c.toInt < -(c.toInt / 2) then (prod a b).tdiv c.toInt - 1
       else if -(c.toInt / 2) < (prod a b).tmod c.toInt then (prod a b).tdiv c.toInt
       else (prod a b).tdiv c.toInt - (prod a b).tdiv c.toInt % 2)) := by
  rw [selected, select_of_inexact _ h, adjustHalfEven]
  simp only [isPos_iff, sval_mul128, sval_quotient, sval_remainder, negThreshold, threshold_eq, odd_eq_emod]

/-- UNNECESSARY raises on the inexact path (43_rounding.md R73). -/
theorem selected_muldivUnnecessary (h : Inexact a b c) :
    selected (.muldivUnnecessary a b c) = .error .roundingUnnecessaryViolation :=
  select_of_inexact adjustUnnecessary h

end Selected

/-- Every variant answers with the outcomes they share (40_datapath.md section 2), given what it answers on the inexact
path. -/
theorem exec_eq_reply {i : Instr} {y : Response}
    (h : Inexact (encodeRequest i).a (encodeRequest i).b (encodeRequest i).c → responseOf (selected i) = y) (s : State) :
    exec i s = .next { s with
      presented := some (reply (prod (encodeRequest i).a (encodeRequest i).b) (sval (encodeRequest i).c) y) } := by
  rw [exec_presents_responseOf, reply]
  split_ifs with hc hr
  · rw [selected_eq_select, select_zero _ _ _ hc]
    rfl
  · rw [selected_eq_select, select_of_exact _ hc hr]
    rfl
  · rw [h ⟨hc, hr⟩]

/-- The variant of a request word is the one its mode value selects (30_encoding.md R39). -/
theorem decode_of_mode {w : RequestWord} {m : ModeWord} (h : w.extractLsb' 192 32 = m) :
    decode w = decodeRequest ⟨w.extractLsb' 0 64, w.extractLsb' 64 64, w.extractLsb' 128 64, m⟩ := by
  subst h
  rfl

/-! #### Where the product lies between the multiples of the divisor -/

/-- The multiples of the divisor around a positive dividend: `x` exceeds `q * y` by a remainder below `|y|`
(42_divider.md R58). -/
theorem tdiv_mul_bracket_of_pos {x y : Int} (hy : y ≠ 0) (hr : x.tmod y ≠ 0) (hx : 0 < x) :
    x.tdiv y * y < x ∧ x < x.tdiv y * y + y.natAbs := by
  have hsum := Int.tdiv_mul_add_tmod x y
  have hlt := natAbs_tmod_lt x hy
  have hsign := tmod_neg_iff hr
  omega

/-- The multiples of the divisor around a negative dividend: `x` falls below `q * y` by less than `|y|`
(42_divider.md R58). -/
theorem tdiv_mul_bracket_of_neg {x y : Int} (hy : y ≠ 0) (hr : x.tmod y ≠ 0) (hx : x < 0) :
    x.tdiv y * y - y.natAbs < x ∧ x < x.tdiv y * y := by
  have hsum := Int.tdiv_mul_add_tmod x y
  have hlt := natAbs_tmod_lt x hy
  have hsign := tmod_neg_iff hr
  omega

/-- The truncated quotient's multiple of the divisor lies on the dividend's side of zero (00_scope.md R12). -/
theorem tdiv_mul_mul_nonneg (x y : Int) : 0 ≤ x.tdiv y * y * x := by
  have hsum := Int.tdiv_mul_add_tmod x y
  have hle : (x.tmod y).natAbs ≤ x.natAbs := by
    rw [Int.natAbs_tmod]
    exact Nat.mod_le _ _
  rcases le_total 0 x with hx | hx
  · exact mul_nonneg (by omega) hx
  · exact mul_nonneg_of_nonpos_of_nonpos (by omega) hx

/-! #### The nine variants -/

/-- Settles O1: for `c > 0` the product lies beyond the truncated quotient's multiple, so the moved quotient is the next
one away from zero. -/
theorem upAddsTheSignOfTheProduct : Obligations.UpAddsTheSignOfTheProduct := by
  refine ⟨fun a b c => exec_eq_reply fun h => congrArg responseOf (selected_muldivUp h), fun w h => decode_of_mode h,
    fun a b c h hpos => ⟨_, selected_muldivUp h, fun hp => ?_, fun hp => ?_⟩, fun _ => rfl, fun _ => rfl, fun _ => rfl⟩
  · have hbracket := tdiv_mul_bracket_of_pos h.1 h.2 hp
    rw [if_pos hp.le, Int.add_sub_cancel, Int.add_mul]
    omega
  · have hbracket := tdiv_mul_bracket_of_neg h.1 h.2 hp
    rw [if_neg (not_le.2 hp), Int.sub_add_cancel, Int.sub_mul]
    omega

/-- Settles O2: the truncated quotient's magnitude is the quotient of the magnitudes, and its multiple has the sign of
the product. -/
theorem downKeepsTheTruncatedQuotient : Obligations.DownKeepsTheTruncatedQuotient := by
  refine ⟨fun a b c => exec_eq_reply fun h => congrArg responseOf (selected_muldivDown h.1), fun w h => decode_of_mode h,
    fun a b c hc => ⟨_, selected_muldivDown hc, ?_, ?_, tdiv_mul_mul_nonneg _ _⟩, fun _ => rfl, fun _ => rfl⟩
  · rw [Int.natAbs_tdiv]
    exact Nat.div_mul_le_self _ _
  · rw [Int.natAbs_tdiv, Nat.mul_comm]
    exact Nat.lt_mul_div_succ _ (Int.natAbs_pos.2 hc)

/-- CEILING is FLOOR plus one on the inexact path and equal to it on the exact one (43_rounding.md R68). -/
theorem selected_ceiling_sub_floor (a b : Word64) {c : Word64} (hc : c.toInt ≠ 0) :
    ∃ q f, selected (.muldivCeiling a b c) = .ok q ∧ selected (.muldivFloor a b c) = .ok f ∧
      q - f = if (prod a b).tmod c.toInt = 0 then 0 else 1 := by
  by_cases hr : (prod a b).tmod c.toInt = 0
  · exact ⟨_, _, select_of_exact _ hc hr, select_of_exact _ hc hr, by rw [if_pos hr, Int.sub_self]⟩
  · refine ⟨_, _, selected_muldivCeiling ⟨hc, hr⟩, selected_muldivFloor ⟨hc, hr⟩, ?_⟩
    rw [if_neg hr]
    split <;> omega

/-- Settles O3: for `c > 0` the truncated quotient is below a positive product and above a negative one. -/
theorem ceilingAddsOneToPositiveProducts : Obligations.CeilingAddsOneToPositiveProducts := by
  refine ⟨fun a b c => exec_eq_reply fun h => congrArg responseOf (selected_muldivCeiling h), fun w h => decode_of_mode h,
    fun a b c h hpos => ⟨_, selected_muldivCeiling h, ?_⟩, fun a b c hc => selected_ceiling_sub_floor a b hc,
    fun _ => rfl, fun _ => rfl, fun _ => rfl, fun _ => rfl⟩
  split_ifs with hp
  · have hbracket := tdiv_mul_bracket_of_pos h.1 h.2 ((prod_nonneg_iff_pos h).1 hp)
    rw [Int.add_sub_cancel, Int.add_mul]
    omega
  · have hbracket := tdiv_mul_bracket_of_neg h.1 h.2 (not_le.1 hp)
    rw [Int.sub_mul]
    omega

/-- Settles O4: for `c > 0` the truncated quotient is below a positive product and above a negative one. -/
theorem floorTakesOneFromNegativeProducts : Obligations.FloorTakesOneFromNegativeProducts := by
  refine ⟨fun a b c => exec_eq_reply fun h => congrArg responseOf (selected_muldivFloor h), fun w h => decode_of_mode h,
    fun a b c h hpos => ⟨_, selected_muldivFloor h, ?_⟩, fun _ => rfl, fun _ => rfl, fun _ => rfl, fun _ => rfl⟩
  split_ifs with hp
  · have hbracket := tdiv_mul_bracket_of_pos h.1 h.2 ((prod_nonneg_iff_pos h).1 hp)
    rw [Int.add_mul]
    omega
  · have hbracket := tdiv_mul_bracket_of_neg h.1 h.2 (not_le.1 hp)
    rw [Int.sub_add_cancel, Int.sub_mul]
    omega

/-- A nonzero remainder of a positive dividend is positive (42_divider.md R58). -/
theorem tmod_pos_of_pos {x y : Int} (hr : x.tmod y ≠ 0) (hx : 0 < x) : 0 < x.tmod y := by
  have hsign := tmod_neg_iff hr
  omega

/-- With a negative divisor the threshold is negative, so every positive product is beyond it (43_rounding.md R76). -/
theorem half_lt_tmod_of_neg_divisor {x y : Int} (hr : x.tmod y ≠ 0) (hy : y < 0) (hx : 0 < x) : y / 2 < x.tmod y := by
  have := tmod_pos_of_pos hr hx
  omega

/-- With a negative divisor the mirrored threshold is positive, so every negative product is beyond it
(43_rounding.md R76). -/
theorem tmod_lt_neg_half_of_neg_divisor {x y : Int} (hr : x.tmod y ≠ 0) (hy : y < 0) (hx : x < 0) :
    x.tmod y < -(y / 2) := by
  have := (tmod_neg_iff hr).2 hx
  omega

/-- With a negative divisor HALF_UP moves up for every positive product (43_rounding.md R70, R76). -/
theorem selected_muldivHalfUp_of_neg_divisor {a b c : Word64} (h : Inexact a b c) (hc : c.toInt < 0) (hp : 0 < prod a b) :
    selected (.muldivHalfUp a b c) = .ok ((prod a b).tdiv c.toInt + 1) := by
  rw [selected_muldivHalfUp h, if_pos hp.le, if_pos (half_lt_tmod_of_neg_divisor h.2 hc hp).le]

/-- Settles O5: the mux step on the integers is the rule, and a negative divisor has a negative threshold. -/
theorem halfUpMovesAtTheThreshold : Obligations.HalfUpMovesAtTheThreshold :=
  ⟨fun _ _ _ => exec_eq_reply fun h => congrArg responseOf (selected_muldivHalfUp h), fun _ h => decode_of_mode h,
    fun _ _ _ => selected_muldivHalfUp_of_neg_divisor, fun _ => rfl, fun _ => rfl, fun _ => rfl, fun _ => rfl, fun _ => rfl⟩

/-- Settles O6: the mux step on the integers is the rule. -/
theorem halfDownMovesBeyondTheThreshold : Obligations.HalfDownMovesBeyondTheThreshold :=
  ⟨fun _ _ _ => exec_eq_reply fun h => congrArg responseOf (selected_muldivHalfDown h), fun _ h => decode_of_mode h,
    fun _ => rfl, fun _ => rfl, fun _ => rfl, fun _ => rfl, fun _ => rfl, fun _ => rfl⟩

/-- With the remainder at the threshold HALF_EVEN moves by the quotient's parity (43_rounding.md R72). -/
theorem selected_muldivHalfEven_of_tie {a b c : Word64} (h : Inexact a b c)
    (htie : (prod a b).tmod c.toInt = if 0 ≤ prod a b then c.toInt / 2 else -(c.toInt / 2)) :
    selected (.muldivHalfEven a b c) = .ok (if 0 ≤ prod a b then (prod a b).tdiv c.toInt + (prod a b).tdiv c.toInt % 2
      else (prod a b).tdiv c.toInt - (prod a b).tdiv c.toInt % 2) := by
  split_ifs at htie with hp <;>
    simp only [selected_muldivHalfEven h, htie, hp, lt_irrefl, if_true, if_false]

/-- Settles O7: a quotient moved by its own parity is even. -/
theorem halfEvenMovesOddQuotientsAtTheThreshold : Obligations.HalfEvenMovesOddQuotientsAtTheThreshold := by
  refine ⟨fun _ _ _ => exec_eq_reply fun h => congrArg responseOf (selected_muldivHalfEven h), fun _ h => decode_of_mode h,
    fun a b c h htie => ⟨_, selected_muldivHalfEven_of_tie h htie, ?_, ?_⟩,
    fun _ => rfl, fun _ => rfl, fun _ => rfl, fun _ => rfl, fun _ => rfl, fun _ => rfl⟩ <;>
  split <;> omega

/-- Settles O8: the mux step raises whatever it reads; a zero operand is exact and a zero divisor comes first. -/
theorem unnecessaryRaisesOnEveryInexactDivision : Obligations.UnnecessaryRaisesOnEveryInexactDivision :=
  ⟨fun _ _ _ => exec_eq_reply fun h => congrArg responseOf (selected_muldivUnnecessary h), fun _ h => decode_of_mode h,
    fun b c hc s => exactDivisionsIgnoreTheMode.2.1 ⟨0, b, c, 7⟩ s hc (.inl rfl),
    fun a b s => zeroDivisorRaisesForEveryVariant a b 7 s, fun _ => rfl, fun _ => rfl⟩

/-- The default variant answers as DOWN does, whatever mode value selected it (43_rounding.md R75). -/
theorem exec_muldivDefault (m : ModeWord) (a b c : Word64) (s : State) :
    exec (.muldivDefault m a b c) s = exec (.muldivDown a b c) s := by
  rw [exec_presents_responseOf, exec_presents_responseOf, selected_muldivDefault]

/-- A nonzero bit at position 3 of the mode or above makes it an unrecognised value (30_encoding.md R39). -/
theorem eight_le_mode_of_upper_ne_zero {w : RequestWord} (h : w.extractLsb' 195 29 ≠ 0) :
    8 ≤ (w.extractLsb' 192 32).toNat := by
  have hsplit : (w.extractLsb' 192 32).extractLsb' 3 29 = w.extractLsb' 195 29 := by
    exact BitVec.eq_of_getLsbD_eq fun i hi => by simp [hi, (by omega : 3 + i < 32), ← Nat.add_assoc]
  rw [← hsplit] at h
  exact not_lt.1 (mt (mode_upper_eq_zero_iff _).2 h)

/-- Settles O9: the default variant selects what DOWN selects, and bits 223 to 195 are those of an unrecognised mode. -/
theorem defaultAnswersAsDown : Obligations.DefaultAnswersAsDown :=
  ⟨fun m a b c s => (exec_muldivDefault m a b c s).trans (downKeepsTheTruncatedQuotient.1 a b c s), exec_muldivDefault,
    fun _ h => decodeRequest_of_unrecognised (eight_le_mode_of_upper_ne_zero h), fun _ => rfl, fun _ => rfl⟩

/-- Settles O29: each variant's quotient is the truncated one plus the delta of its row. -/
theorem muxMovesTheQuotientByAtMostOne : Obligations.MuxMovesTheQuotientByAtMostOne := by
  intro a b c m h
  have hquot : ((prod a b).tdiv c.toInt).natAbs ≤ 2 ^ 125 := natAbs_tdiv_le_of_inexact h
  have hdown : selected (.muldivDown a b c) = .ok ((prod a b).tdiv c.toInt + 0) := by
    rw [selected_muldivDown h.1, Int.add_zero]
  refine ⟨two_le_natAbs_of_tmod_ne_zero h.1 h.2, hquot, fun d hlo hhi => by omega, ?_, hdown, ?_, ?_, ?_, ?_, ?_,
    selected_muldivUnnecessary h, (selected_muldivDefault m a b c).trans hdown⟩
  · simp only [selected_muldivUp h, prod_nonneg_iff_pos h, add_ite, sub_eq_add_neg]
  · simp only [selected_muldivCeiling h, prod_nonneg_iff_pos h, add_ite, add_zero]
  · simp only [selected_muldivFloor h, prod_nonneg_iff_pos h, add_ite, add_zero, sub_eq_add_neg]
  · simp only [selected_muldivHalfUp h, prod_nonneg_iff_pos h, add_ite, add_zero, sub_eq_add_neg]
  · simp only [selected_muldivHalfDown h, prod_nonneg_iff_pos h, add_ite, add_zero, sub_eq_add_neg]
  · simp only [selected_muldivHalfEven h, prod_nonneg_iff_pos h, add_ite, add_zero, sub_eq_add_neg]

section NegativeDivisor

variable {a b c : Word64}

/-- With a negative divisor and a positive product the truncated quotient is the ceiling, and every variant but DOWN and
FLOOR moves up (43_rounding.md R76). -/
theorem moves_of_neg_divisor_of_pos (h : Inexact a b c) (hc : c.toInt < 0) (hp : 0 < prod a b) :
    let p := prod a b
    let q := p.tdiv c.toInt
    (q * c.toInt < p ∧ p < (q - 1) * c.toInt) ∧
      selected (.muldivUp a b c) = .ok (q + 1) ∧ selected (.muldivDown a b c) = .ok q ∧
      selected (.muldivCeiling a b c) = .ok (q + 1) ∧ selected (.muldivFloor a b c) = .ok q ∧
      selected (.muldivHalfUp a b c) = .ok (q + 1) ∧ selected (.muldivHalfDown a b c) = .ok (q + 1) ∧
      selected (.muldivHalfEven a b c) = .ok (q + 1) := by
  have hbeyond := half_lt_tmod_of_neg_divisor h.2 hc hp
  refine ⟨?_, ?_, selected_muldivDown h.1, ?_, ?_, selected_muldivHalfUp_of_neg_divisor h hc hp, ?_, ?_⟩
  · have hbracket := tdiv_mul_bracket_of_pos h.1 h.2 hp
    rw [Int.sub_mul]
    omega
  · rw [selected_muldivUp h, if_pos hp.le]
  · rw [selected_muldivCeiling h, if_pos hp.le]
  · rw [selected_muldivFloor h, if_pos hp.le]
  · rw [selected_muldivHalfDown h, if_pos hp.le, if_pos hbeyond]
  · rw [selected_muldivHalfEven h, if_pos hp.le, if_pos hbeyond]

/-- With a negative divisor and a negative product the truncated quotient is the floor, and every variant but DOWN and
CEILING moves down (43_rounding.md R76). -/
theorem moves_of_neg_divisor_of_neg (h : Inexact a b c) (hc : c.toInt < 0) (hp : prod a b < 0) :
    let p := prod a b
    let q := p.tdiv c.toInt
    ((q + 1) * c.toInt < p ∧ p < q * c.toInt) ∧
      selected (.muldivUp a b c) = .ok (q - 1) ∧ selected (.muldivDown a b c) = .ok q ∧
      selected (.muldivCeiling a b c) = .ok q ∧ selected (.muldivFloor a b c) = .ok (q - 1) ∧
      selected (.muldivHalfUp a b c) = .ok (q - 1) ∧ selected (.muldivHalfDown a b c) = .ok (q - 1) ∧
      selected (.muldivHalfEven a b c) = .ok (q - 1) := by
  have hbeyond := tmod_lt_neg_half_of_neg_divisor h.2 hc hp
  have hnot : ¬ 0 ≤ prod a b := not_le.2 hp
  refine ⟨?_, ?_, selected_muldivDown h.1, ?_, ?_, ?_, ?_, ?_⟩
  · have hbracket := tdiv_mul_bracket_of_neg h.1 h.2 hp
    rw [Int.add_mul]
    omega
  · rw [selected_muldivUp h, if_neg hnot]
  · rw [selected_muldivCeiling h, if_neg hnot]
  · rw [selected_muldivFloor h, if_neg hnot]
  · rw [selected_muldivHalfUp h, if_neg hnot, if_pos hbeyond.le]
  · rw [selected_muldivHalfDown h, if_neg hnot, if_pos hbeyond]
  · rw [selected_muldivHalfEven h, if_neg hnot, if_pos hbeyond]

end NegativeDivisor

/-- Settles O32: every inexact product with a negative divisor lies beyond its threshold. -/
theorem negativeDivisorsFollowTheFormulas : Obligations.NegativeDivisorsFollowTheFormulas :=
  ⟨fun _ _ _ h hc => ⟨moves_of_neg_divisor_of_pos h hc, moves_of_neg_divisor_of_neg h hc, selected_muldivUnnecessary h⟩,
    fun _ => rfl, fun _ => rfl, fun _ => rfl, fun _ => rfl, fun _ => rfl, fun _ => rfl, fun _ => rfl,
    fun _ => rfl, fun _ => rfl, fun _ => rfl, fun _ => rfl, fun _ => rfl, fun _ => rfl, fun _ => rfl⟩

end Sys2Proof.Machine

/-! ### The outcomes and the errors (60_exceptions.md) -/

namespace Sys2Proof.Machine

open Sys2Proof.Claims

/-- Mode 7 selects UNNECESSARY (30_encoding.md R39). -/
theorem decodeRequest_of_mode_seven {r : Request} (h : r.mode = 7) :
    decodeRequest r = .muldivUnnecessary r.a r.b r.c := by
  obtain ⟨a, b, c, m⟩ := r
  obtain rfl : m = 7 := h
  rfl

/-- Only the mux step of mode 7 raises an error (43_rounding.md R65). -/
theorem exists_muxStep_ok {i : Instr} (h : (encodeRequest i).mode ≠ 7) (p q r : Wide) (c : Word64) :
    ∃ x, muxStep i p q r c = .ok x := by
  cases i
  case muldivUnnecessary => exact absurd rfl h
  all_goals exact ⟨_, rfl⟩

/-- With a nonzero divisor every mode but 7 selects a quotient (43_rounding.md R65). -/
theorem exists_selected_of_mode_ne_seven {r : Request} (hc : r.c ≠ 0) (hm : r.mode ≠ 7) :
    ∃ q, selected (decodeRequest r) = .ok q := by
  rw [selected_decodeRequest]
  exact exists_select_ok (exists_muxStep_ok (by rwa [encodeRequest_decodeRequest])) r.a r.b (mt sval_eq_zero.1 hc)

/-- Mode 7 raises its error on the inexact path (60_exceptions.md R78). -/
theorem selected_of_mode_seven {r : Request} (hc : r.c ≠ 0) (hr : (prod r.a r.b).tmod r.c.toInt ≠ 0) (hm : r.mode = 7) :
    selected (decodeRequest r) = .error .roundingUnnecessaryViolation := by
  rw [decodeRequest_of_mode_seven hm, selected_muldivUnnecessary ⟨mt sval_eq_zero.1 hc, hr⟩]

/-- Settles O37: the divisor check comes first, then the exact path, and only the mux step of mode 7 raises an error. -/
theorem outcomesApplyInOrder : Obligations.OutcomesApplyInOrder := by
  refine fun r s => ⟨fun hc => exec_of_zero_divisor hc s, fun hc hr => exec_of_exact (mt sval_eq_zero.1 hc) hr s,
    fun hc hr hm => ?_, fun hc _ hm => ?_⟩
  · rw [exec_presents_responseOf, selected_of_mode_seven hc hr hm]
    rfl
  · obtain ⟨q, hq⟩ := exists_selected_of_mode_ne_seven hc hm
    exact ⟨q, hq, exec_of_selected_ok hq s⟩

/-- What a request selects, in the order of the outcomes (60_exceptions.md R81). -/
theorem selected_cases (r : Request) :
    (r.c = 0 ∧ selected (decodeRequest r) = .error .divideByZero) ∨
    (r.c ≠ 0 ∧ (prod r.a r.b).tmod r.c.toInt = 0 ∧ selected (decodeRequest r) = .ok ((prod r.a r.b).tdiv r.c.toInt)) ∨
    (r.c ≠ 0 ∧ (prod r.a r.b).tmod r.c.toInt ≠ 0 ∧ r.mode = 7 ∧
      selected (decodeRequest r) = .error .roundingUnnecessaryViolation) ∨
    (r.c ≠ 0 ∧ (prod r.a r.b).tmod r.c.toInt ≠ 0 ∧ r.mode ≠ 7 ∧ ∃ q, selected (decodeRequest r) = .ok q) := by
  by_cases hc : r.c = 0
  · exact .inl ⟨hc, selected_of_zero_divisor hc⟩
  by_cases hr : (prod r.a r.b).tmod r.c.toInt = 0
  · exact .inr (.inl ⟨hc, hr, (selected_decodeRequest r).trans (select_of_exact _ (mt sval_eq_zero.1 hc) hr)⟩)
  by_cases hm : r.mode = 7
  · exact .inr (.inr (.inl ⟨hc, hr, hm, selected_of_mode_seven hc hr hm⟩))
  · exact .inr (.inr (.inr ⟨hc, hr, hm, exists_selected_of_mode_ne_seven hc hm⟩))

/-- The divisor check alone raises `DivideByZero` (60_exceptions.md R79). -/
theorem selected_eq_divideByZero_iff (r : Request) : selected (decodeRequest r) = .error .divideByZero ↔ r.c = 0 := by
  obtain ⟨hc, h⟩ | ⟨hc, -, h⟩ | ⟨hc, -, -, h⟩ | ⟨hc, -, -, q, h⟩ := selected_cases r
  · exact iff_of_true h hc
  all_goals exact iff_of_false (by simp [h]) hc

/-- Mode 7 on the inexact path alone raises `RoundingUnnecessaryViolation` (60_exceptions.md R78). -/
theorem selected_eq_violation_iff (r : Request) : selected (decodeRequest r) = .error .roundingUnnecessaryViolation ↔
    r.mode = 7 ∧ r.c ≠ 0 ∧ (prod r.a r.b).tmod r.c.toInt ≠ 0 := by
  obtain ⟨hc, h⟩ | ⟨-, hr, h⟩ | ⟨hc, hr, hm, h⟩ | ⟨-, -, hm, q, h⟩ := selected_cases r
  · exact iff_of_false (by simp [h]) fun ⟨_, hc', _⟩ => hc' hc
  · exact iff_of_false (by simp [h]) fun ⟨_, _, hr'⟩ => hr' hr
  · exact iff_of_true h ⟨hm, hc, hr⟩
  · exact iff_of_false (by simp [h]) fun ⟨hm', _⟩ => hm hm'

/-- An error is presented exactly when it is raised (60_exceptions.md R77). -/
theorem responseOf_eq_err_iff {x : Except ErrorKind Int} {kind : ErrorKind} :
    responseOf x = .err kind ↔ x = .error kind := by
  cases x <;> simp [responseOf, respondOk, raise]

/-- The status 0 is that of a result (30_encoding.md R42). -/
theorem status_eq_zero_iff {o : Response} : o.status = 0 ↔ ∃ y, o = .ok y := by
  rcases o with _ | _ | _ <;> simp [Response.status, ErrorKind.code]

/-- An error's code is the status of that error alone (30_encoding.md R42). -/
theorem status_eq_code_iff {o : Response} {kind : ErrorKind} : o.status = kind.code ↔ o = .err kind := by
  rcases o with y | e
  · cases kind <;> simp [Response.status, ErrorKind.code]
  · cases e <;> cases kind <;> decide

/-- The status 3 is never produced (30_encoding.md R42). -/
theorem status_ne_three (o : Response) : o.status ≠ 3 := by
  rcases o with _ | _ | _ <;> simp [Response.status, ErrorKind.code]

/-- Settles O38: what a request raises has one cause for each error, and a status tells the responses apart. -/
theorem exactlyTwoErrorsWithTheirCauses : Obligations.ExactlyTwoErrorsWithTheirCauses := fun r s =>
  ⟨responseOf (selected (decodeRequest r)), exec_presents_responseOf _ s,
    responseOf_eq_err_iff.trans (selected_eq_violation_iff r),
    responseOf_eq_err_iff.trans (selected_eq_divideByZero_iff r), status_eq_code_iff.symm, status_eq_code_iff.symm,
    status_eq_zero_iff.symm, status_ne_three _,
    fun h => by rw [encodeResponse, yField_eq_zero_of_status_ne_zero h]⟩

end Sys2Proof.Machine

/-! ### Instants (70_reset_and_hazards.md): what one instant makes of the requests in flight -/

namespace Sys2Proof.Machine

/-- The host's input at this instant is the first of those to come, or quiet. -/
theorem nextInput_eq (s : State) : nextInput s = s.inputs.head?.getD .quiet := by
  unfold nextInput
  split <;> simp [*]

theorem nextInput_of_head? {s : State} {e : HostInput} (h : s.inputs.head? = some e) : nextInput s = e := by
  rw [nextInput_eq, h, Option.getD_some]

/-- A quiet instant brings no request. -/
theorem arrivals_of_quiet (latency : Nat) {s : State} (h : nextInput s = .quiet) : arrivals latency s = [] := by
  rw [arrivals, h]

/-- A request issued at an instant is due after the latency (70_reset_and_hazards.md R96). -/
theorem arrivals_of_issue (latency : Nat) {s : State} {w : RequestWord} (h : nextInput s = .issue w) :
    arrivals latency s = [⟨unpack w, latency⟩] := by
  rw [arrivals, h]

/-- A request that arrives is one to come, due after the latency. -/
theorem exists_issue_of_mem_arrivals {latency : Nat} {s : State} {f : InFlight} (h : f ∈ arrivals latency s) :
    ∃ w, .issue w ∈ s.inputs ∧ f = ⟨unpack w, latency⟩ := by
  unfold arrivals at h
  split at h
  case h_1 w hw =>
    refine ⟨w, ?_, List.mem_singleton.1 h⟩
    rw [nextInput_eq] at hw
    cases hin : s.inputs with
    | nil => simp [hin] at hw
    | cons e es => simp_all
  all_goals simp at h

/-- The requests an instant finds in flight: none under reset, else those already there and the one that arrives. -/
def pending (latency : Nat) (s : State) : List InFlight :=
  if nextInput s = .reset then [] else s.inFlight ++ arrivals latency s

theorem pending_of_reset (latency : Nat) {s : State} (h : nextInput s = .reset) : pending latency s = [] := if_pos h

theorem pending_of_not_reset (latency : Nat) {s : State} (h : nextInput s ≠ .reset) :
    pending latency s = s.inFlight ++ arrivals latency s := if_neg h

/-- A request an instant finds was in flight before or arrives. -/
theorem mem_pending {latency : Nat} {s : State} {f : InFlight} (h : f ∈ pending latency s) :
    f ∈ s.inFlight ∨ f ∈ arrivals latency s := by
  unfold pending at h
  split at h
  · exact absurd h List.not_mem_nil
  · exact List.mem_append.1 h

/-- The due request is the oldest of those the instant finds, when its count has run out. -/
theorem dueRequest_eq (latency : Nat) (s : State) : dueRequest latency s = dueHead (pending latency s) := by
  unfold dueRequest pending arrivals
  cases nextInput s <;> simp [dueHead]

/-- The requests that an instant leaves unanswered: all but the oldest, and the oldest too if it is not due. -/
def waiting : List InFlight → List InFlight
  | [] => []
  | f :: fs => if f.remaining = 0 then fs else f :: fs

theorem dueHead_cons_due {f : InFlight} (hf : f.remaining = 0) (fs : List InFlight) : dueHead (f :: fs) = some f.req :=
  if_pos hf

theorem waiting_cons_due {f : InFlight} (hf : f.remaining = 0) (fs : List InFlight) : waiting (f :: fs) = fs :=
  if_pos hf

theorem dueHead_cons_waiting {f : InFlight} (hf : f.remaining ≠ 0) (fs : List InFlight) : dueHead (f :: fs) = none :=
  if_neg hf

theorem waiting_cons_waiting {f : InFlight} (hf : f.remaining ≠ 0) (fs : List InFlight) : waiting (f :: fs) = f :: fs :=
  if_neg hf

theorem waiting_sublist (fs : List InFlight) : (waiting fs).Sublist fs := by
  cases fs with
  | nil => exact .slnil
  | cons f fs =>
    by_cases hf : f.remaining = 0
    · rw [waiting_cons_due hf]
      exact List.sublist_cons_self f fs
    · rw [waiting_cons_waiting hf]

/-- The request that is due is one of those in flight. -/
theorem exists_mem_of_dueHead {fs : List InFlight} {r : Request} (h : dueHead fs = some r) : ∃ f ∈ fs, f.req = r := by
  cases fs with
  | nil => cases h
  | cons f fs =>
    by_cases hf : f.remaining = 0
    · rw [dueHead_cons_due hf] at h
      exact ⟨f, List.mem_cons_self, Option.some.inj h⟩
    · rw [dueHead_cons_waiting hf] at h
      cases h

/-- The state after one instant: the due request is answered, one instant passes for the others, and one input is
taken. -/
def afterInstant (latency : Nat) (s : State) : State :=
  { inFlight := age (waiting (pending latency s))
    presented := (dueHead (pending latency s)).bind outcomeAlone
    inputs := s.inputs.tail }

/-- What one instant does, whatever the state, the input and the latency. -/
theorem instant_eq (latency : Nat) (s : State) : instant latency s = .next (afterInstant latency s) := by
  unfold afterInstant
  by_cases hr : nextInput s = .reset
  · rw [instant_reset latency hr, pending_of_reset latency hr]
    rfl
  rw [instant_eq_answer latency hr, ← pending_of_not_reset latency hr]
  rcases hl : pending latency s with _ | ⟨f, fs⟩
  · exact answer_nil rfl
  by_cases hf : f.remaining = 0
  · rw [answer_due rfl hf, dueHead_cons_due hf, waiting_cons_due hf]
    rfl
  · rw [answer_waiting rfl hf, dueHead_cons_waiting hf, waiting_cons_waiting hf]
    rfl

/-- The state an instant goes on to is the one state after it. -/
theorem eq_afterInstant {latency : Nat} {s t : State} (h : instant latency s = .next t) : t = afterInstant latency s :=
  (Host.Outcome.next.inj ((instant_eq latency s).symm.trans h)).symm

/-- The outputs of a run are the response at its first instant and the outputs from there. -/
theorem outputs_succ (latency n : Nat) (s : State) :
    outputs latency (n + 1) s = (afterInstant latency s).presented :: outputs latency n (afterInstant latency s) := by
  rw [outputs, instant_eq]

@[simp] theorem outputs_length (latency n : Nat) (s : State) : (outputs latency n s).length = n := by
  induction n generalizing s with
  | zero => rfl
  | succ n ih => rw [outputs_succ, List.length_cons, ih]

/-- Settles O42: an instant has one next state, and takes one input off the list. -/
theorem everyInstantGoesOn : Obligations.EveryInstantGoesOn :=
  fun latency s => ⟨afterInstant latency s, instant_eq latency s, rfl⟩

/-- A request always gets a response (60_exceptions.md R77). -/
theorem bind_outcomeAlone_eq_none_iff {o : Option Request} : o.bind outcomeAlone = none ↔ o = none := by
  cases o <;> simp [outcomeAlone_eq]

/-- Settles O48: the next state presents the due request's response, and every request has one. -/
theorem instantPresentsTheDueResponse : Obligations.InstantPresentsTheDueResponse := by
  intro latency s t h
  rw [eq_afterInstant h, dueRequest_eq]
  exact ⟨rfl, bind_outcomeAlone_eq_none_iff⟩

/-- Settles O49: the state after an instant does not depend on what was presented before it. -/
theorem noMemoryOfTheLastResponse : Obligations.NoMemoryOfTheLastResponse := by
  intro latency n s r
  cases n with
  | zero => rfl
  | succ n =>
    have hafter : afterInstant latency { s with presented := r } = afterInstant latency s := rfl
    rw [outputs_succ, outputs_succ, hafter]

/-- Settles O45: an instant with reset asserted finds nothing to answer. -/
theorem resetDiscardsRequestsInFlight : Obligations.ResetDiscardsRequestsInFlight :=
  fun latency _ h => instant_reset latency (nextInput_of_head? h)

/-- Settles O43: neither the oldest request in flight nor the one that arrives is due. -/
theorem issuedRequestIsCapturedWhole : Obligations.IssuedRequestIsCapturedWhole := by
  intro latency s w hw hlat hwait
  have hissue := nextInput_of_head? hw
  have hpending : pending latency s = s.inFlight ++ [⟨unpack w, latency⟩] := by
    rw [pending_of_not_reset latency (by simp [hissue]), arrivals_of_issue latency hissue]
  obtain ⟨f, fs, hfs, hf⟩ : ∃ f fs, pending latency s = f :: fs ∧ f.remaining ≠ 0 := by
    rw [hpending]
    cases hin : s.inFlight with
    | nil => exact ⟨_, [], rfl, hlat⟩
    | cons f fs => exact ⟨f, _, rfl, hwait f (by rw [hin, List.head?_cons])⟩
  rw [instant_eq, afterInstant, hfs, dueHead_cons_waiting hf, waiting_cons_waiting hf, ← hfs, hpending]
  rfl

/-- An instant that finds its oldest request due runs the instruction that request decodes to. -/
theorem instant_of_due {latency : Nat} {s : State} {f : InFlight} {fs : List InFlight} (hr : nextInput s ≠ .reset)
    (hfs : s.inFlight ++ arrivals latency s = f :: fs) (hf : f.remaining = 0) :
    instant latency s =
      exec (decodeRequest f.req) { inFlight := age fs, presented := none, inputs := s.inputs.tail } := by
  rw [instant_eq_answer latency hr, hfs, answer_due rfl hf, exec_decodeRequest]

/-- Settles O44: with nothing in flight the request that arrives is the oldest, and it is due at once. -/
theorem zeroLatencyAnswersAtOnce : Obligations.ZeroLatencyAnswersAtOnce := by
  intro s w hnil hw
  have hissue := nextInput_of_head? hw
  have hfs : s.inFlight ++ arrivals 0 s = [⟨unpack w, 0⟩] := by rw [hnil, arrivals_of_issue 0 hissue, List.nil_append]
  rw [instant_of_due (by simp [hissue]) hfs rfl]
  rfl

/-- The host is quiet at this instant when its inputs have ended or the next one is quiet. -/
theorem nextInput_eq_quiet {s : State} (h : s.inputs = [] ∨ s.inputs.head? = some .quiet) : nextInput s = .quiet := by
  rcases h with h | h
  · rw [nextInput_eq, h]
    rfl
  · exact nextInput_of_head? h

/-- Settles O40: the due request is the oldest of those the instant finds. -/
theorem stepRunsTheDecodedInstruction : Obligations.StepRunsTheDecodedInstruction := by
  rintro s f fs i hs hf rfl
  refine ⟨fun h => ?_, fun w h => ?_⟩
  · have hquiet := nextInput_eq_quiet h
    exact instant_of_due (by simp [hquiet]) (by rw [arrivals_of_quiet _ hquiet, List.append_nil, hs]) hf
  · have hissue := nextInput_of_head? h
    exact instant_of_due (by simp [hissue]) (by rw [arrivals_of_issue _ hissue, hs, List.cons_append]) hf

/-- A table word the decoder accepts stands for a request that decodes to that instruction. -/
theorem decodeRequest_tableRequest {n w : Nat} {i : Instr} (h : decodeTableWord n w = some i) :
    decodeRequest (tableRequest n w) = i := by
  unfold decodeTableWord decodeBits at h
  by_cases hn : n ≤ 224
  · simpa [hn] using h
  · have hlength : n ≠ 224 := by omega
    rw [if_neg hn, if_neg hlength] at h
    cases h

/-- Settles O41: the placed request is the oldest one in flight, it is due, and the host is quiet. -/
theorem placedTableWordRunsNext : Obligations.PlacedTableWordRunsNext := by
  intro s n w i h
  exact stepRunsTheDecodedInstruction _ ⟨tableRequest n w, 0⟩ s.inFlight i rfl rfl (decodeRequest_tableRequest h)
    |>.1 (.inr rfl)

/-- A machine with nothing in flight is scheduled, whatever its inputs. -/
theorem scheduled_of_inFlight_nil (latency : Nat) {s : State} (h : s.inFlight = []) : Scheduled latency s := by
  rw [Scheduled, h]
  exact ⟨.nil, List.forall_mem_nil _⟩

/-- Settles O46: with nothing in flight there is no request to break the order. -/
theorem resetStateIsScheduledAndSilent : Obligations.ResetStateIsScheduledAndSilent :=
  ⟨rfl, rfl, fun latency => scheduled_of_inFlight_nil latency rfl, rfl⟩

/-- A read of the status gives no value exactly when no response is presented (70_reset_and_hazards.md R92). -/
theorem readStatus_faults_iff (s : State) : readStatus s = .error .noResponsePresented ↔ s.presented = none := by
  unfold readStatus
  split <;> simp [*]

/-- A read of the result faults for want of a response exactly when none is presented (70_reset_and_hazards.md R92). -/
theorem readResult_faults_iff (s : State) : readResult s = .error .noResponsePresented ↔ s.presented = none := by
  unfold readResult
  split <;> simp [*]

/-- Settles O47: each read looks at the presented response alone. -/
theorem noResponseNoValue : Obligations.NoResponseNoValue := by
  refine ⟨fun s => (readStatus_faults_iff s).symm, fun s => (readResult_faults_iff s).symm,
    fun s k h => ⟨readStatus_of_presented h, ?_⟩,
    fun s y h => ⟨readStatus_of_presented h, readResult_eq_ok_iff.2 h⟩⟩
  rw [readResult, h]

/-- The core at a position of a list makes its own next state there. -/
theorem stepInstance_eq (k : Nat) (cores : List State) :
    stepInstance k cores = cores[k]?.map fun s => cores.set k (afterInstant Config.latency s) := by
  unfold stepInstance
  cases cores[k]? with
  | none => rfl
  | some s => simp only [step, instant_eq, Option.map_some]

/-- Settles O55: a step writes at its own position of the list and nowhere else. -/
theorem instancesShareNothing : Obligations.InstancesShareNothing := by
  intro k cores
  rw [stepInstance_eq]
  by_cases hk : k < cores.length
  · rw [List.getElem?_eq_getElem hk, Option.map_some]
    refine ⟨iff_of_true hk ⟨_, rfl⟩, ?_⟩
    rintro _ ⟨⟩
    refine ⟨List.length_set, fun j hj => List.getElem?_set_ne hj.symm, ?_⟩
    rintro s ⟨⟩
    exact ⟨_, instant_eq _ _, List.getElem?_set_self hk⟩
  · rw [List.getElem?_eq_none (not_lt.1 hk)]
    exact ⟨iff_of_false hk (by simp), by simp⟩

end Sys2Proof.Machine

/-! ### Runs (70_reset_and_hazards.md): every request is answered once, in order, after the latency -/

namespace Sys2Proof.Machine

/-- The requests are due at different instants, the oldest first (70_reset_and_hazards.md R95). -/
def DueInOrder (fs : List InFlight) : Prop := fs.Pairwise fun f g => f.remaining < g.remaining

/-- Everything that arrives at an instant is due after the latency. -/
theorem remaining_of_mem_arrivals {latency : Nat} {s : State} {f : InFlight} (h : f ∈ arrivals latency s) :
    f.remaining = latency := by
  obtain ⟨w, -, rfl⟩ := exists_issue_of_mem_arrivals h
  rfl

/-- At most one request arrives at an instant. -/
theorem arrivals_dueInOrder (latency : Nat) (s : State) : DueInOrder (arrivals latency s) := by
  unfold DueInOrder arrivals
  split <;> simp

/-- A request that arrives is due after all those in flight. -/
theorem pending_dueInOrder {latency : Nat} {s : State} (h : Scheduled latency s) : DueInOrder (pending latency s) := by
  obtain ⟨horder, hlt⟩ := h
  unfold pending
  split
  · exact .nil
  · refine List.pairwise_append.2 ⟨horder, arrivals_dueInOrder latency s, fun f hf g hg => ?_⟩
    rw [remaining_of_mem_arrivals hg]
    exact hlt f hf

theorem remaining_le_of_mem_pending {latency : Nat} {s : State} (h : Scheduled latency s) {f : InFlight}
    (hf : f ∈ pending latency s) : f.remaining ≤ latency := by
  rcases mem_pending hf with hf | hf
  · exact (h.2 f hf).le
  · exact (remaining_of_mem_arrivals hf).le

/-- Of requests due in order only the oldest can be due now, so none that is left waiting is. -/
theorem remaining_ne_zero_of_mem_waiting {fs : List InFlight} (h : DueInOrder fs) {f : InFlight} (hf : f ∈ waiting fs) :
    f.remaining ≠ 0 := by
  cases fs with
  | nil => cases hf
  | cons g gs =>
    have hlater := List.rel_of_pairwise_cons h (a' := f)
    by_cases hg : g.remaining = 0
    · rw [waiting_cons_due hg] at hf
      have := hlater hf
      omega
    · rw [waiting_cons_waiting hg] at hf
      rcases List.mem_cons.1 hf with rfl | hf
      · exact hg
      · have := hlater hf
        omega

/-- Aging keeps the order of requests none of which is due. -/
theorem age_dueInOrder {fs : List InFlight} (h : DueInOrder fs) (hne : ∀ f ∈ fs, f.remaining ≠ 0) :
    DueInOrder (age fs) := by
  refine List.pairwise_map.2 (h.imp_of_mem fun {f g} hf hg hlt => ?_)
  have := hne f hf
  change f.remaining - 1 < g.remaining - 1
  omega

theorem waiting_dueInOrder {fs : List InFlight} (h : DueInOrder fs) : DueInOrder (waiting fs) :=
  List.Pairwise.sublist (waiting_sublist fs) h

/-- The state after an instant is scheduled when the one before is. -/
theorem afterInstant_scheduled {latency : Nat} {s : State} (h : Scheduled latency s) :
    Scheduled latency (afterInstant latency s) := by
  have horder := pending_dueInOrder h
  have hne := fun f => remaining_ne_zero_of_mem_waiting horder (f := f)
  refine ⟨age_dueInOrder (waiting_dueInOrder horder) hne, fun g hg => ?_⟩
  obtain ⟨f, hf, -, hk⟩ := (mem_age _).1 hg
  have hle := remaining_le_of_mem_pending h ((waiting_sublist _).subset hf)
  have := hne f hf
  omega

/-- Settles O50: what arrives is due last, only the oldest can be due, and the others come one instant nearer. -/
theorem instantKeepsRequestsScheduled : Obligations.InstantKeepsRequestsScheduled := by
  intro latency s t hs h
  rw [eq_afterInstant h]
  exact afterInstant_scheduled hs

/-- A request without a zero divisor gets no `DivideByZero` (60_exceptions.md R79). -/
theorem outcomeAlone_ne_divideByZero {r : Request} (hc : r.c ≠ 0) : outcomeAlone r ≠ some (.err .divideByZero) := by
  rw [outcomeAlone_eq, ne_eq, Option.some_inj, responseOf_eq_err_iff, selected_eq_divideByZero_iff]
  exact hc

/-- Settles O54: every request an instant finds keeps the caller's duty, so the one it answers raises no
`DivideByZero`. -/
theorem callerContractExcludesDivideByZero : Obligations.CallerContractExcludesDivideByZero := by
  rintro latency s t ⟨hflight, hinputs, -⟩ h
  rw [eq_afterInstant h]
  have hpending : ∀ f ∈ pending latency s, f.req.c ≠ 0 := by
    intro f hf
    rcases mem_pending hf with hf | hf
    · exact hflight f hf
    · obtain ⟨w, hw, rfl⟩ := exists_issue_of_mem_arrivals hf
      exact hinputs w hw
  refine ⟨fun g hg => ?_, fun w hw => hinputs w (List.mem_of_mem_tail hw), fun hpresented => ?_⟩
  · obtain ⟨f, hf, hreq, -⟩ := (mem_age _).1 hg
    rw [hreq]
    exact hpending f ((waiting_sublist _).subset hf)
  · obtain ⟨r, hr, hout⟩ := Option.bind_eq_some_iff.1 hpresented
    obtain ⟨f, hf, rfl⟩ := exists_mem_of_dueHead hr
    exact outcomeAlone_ne_divideByZero (hpending f hf) hout

/-! #### The response promised at each coming instant -/

/-- The request that has this count of instants left. -/
def requestDueIn (k : Nat) (fs : List InFlight) : Option Request := (fs.find? (·.remaining = k)).map (·.req)

theorem requestDueIn_eq_none {k : Nat} {fs : List InFlight} (h : ∀ f ∈ fs, f.remaining ≠ k) :
    requestDueIn k fs = none := by
  rw [requestDueIn, List.find?_eq_none.2 (by simpa using h), Option.map_none]

/-- Where the requests are due in order, the one with no instants left is the oldest. -/
theorem requestDueIn_zero {fs : List InFlight} (h : DueInOrder fs) : requestDueIn 0 fs = dueHead fs := by
  cases fs with
  | nil => rfl
  | cons f fs =>
    by_cases hf : f.remaining = 0
    · rw [dueHead_cons_due hf, requestDueIn, List.find?_cons_of_pos (by simpa using hf), Option.map_some]
    · rw [dueHead_cons_waiting hf]
      refine requestDueIn_eq_none fun g hg => remaining_ne_zero_of_mem_waiting h ?_
      rwa [waiting_cons_waiting hf]

/-- Of two lists of requests, the due one of the first comes first. -/
theorem requestDueIn_append (k : Nat) (fs gs : List InFlight) :
    requestDueIn k (fs ++ gs) = (requestDueIn k fs).or (requestDueIn k gs) := by
  simp only [requestDueIn, List.find?_append, Option.map_or]

theorem requestDueIn_cons_pos {k : Nat} {f : InFlight} (hf : f.remaining = k) (fs : List InFlight) :
    requestDueIn k (f :: fs) = some f.req := by
  rw [requestDueIn, List.find?_cons_of_pos (by simpa using hf), Option.map_some]

theorem requestDueIn_cons_neg {k : Nat} {f : InFlight} (hf : f.remaining ≠ k) (fs : List InFlight) :
    requestDueIn k (f :: fs) = requestDueIn k fs := by
  rw [requestDueIn, List.find?_cons_of_neg (by simpa using hf), requestDueIn]

/-- The request with a count of its own is found by it. -/
theorem requestDueIn_of_mem {fs : List InFlight} (h : DueInOrder fs) {f : InFlight} (hf : f ∈ fs) :
    requestDueIn f.remaining fs = some f.req := by
  induction fs with
  | nil => cases hf
  | cons g gs ih =>
    obtain ⟨hlater, horder⟩ := List.pairwise_cons.1 h
    rcases List.mem_cons.1 hf with rfl | hf
    · exact requestDueIn_cons_pos rfl gs
    · rw [requestDueIn_cons_neg (hlater f hf).ne, ih horder hf]

/-- An instant brings every request that is not due one nearer. -/
theorem requestDueIn_age (k : Nat) {fs : List InFlight} (hne : ∀ f ∈ fs, f.remaining ≠ 0) :
    requestDueIn k (age fs) = requestDueIn (k + 1) fs := by
  induction fs with
  | nil => rfl
  | cons f fs ih =>
    obtain ⟨hf, hfs⟩ := List.forall_mem_cons.1 hne
    rw [age_cons]
    by_cases hk : f.remaining = k + 1
    · rw [requestDueIn_cons_pos hk, requestDueIn_cons_pos (by simp [hk])]
    · rw [requestDueIn_cons_neg hk, requestDueIn_cons_neg (by simp only [ne_eq]; omega), ih hfs]

/-- What is due later is still waiting. -/
theorem requestDueIn_waiting (k : Nat) (fs : List InFlight) :
    requestDueIn (k + 1) (waiting fs) = requestDueIn (k + 1) fs := by
  cases fs with
  | nil => rfl
  | cons f fs =>
    by_cases hf : f.remaining = 0
    · rw [waiting_cons_due hf, requestDueIn_cons_neg (by omega)]
    · rw [waiting_cons_waiting hf]

/-- The response that the requests in flight and the inputs to come promise for the `k`-th coming instant: up to the
latency that of the request in flight with `k` instants left, then that of the input a latency before. -/
def promised (latency : Nat) (s : State) (k : Nat) : Option Response :=
  if k < latency then (requestDueIn k s.inFlight).bind outcomeAlone else s.inputs[k - latency]?.bind requested

/-- What arrives at an instant gets the response its input asks for. -/
theorem requestDueIn_arrivals (latency : Nat) (s : State) :
    (requestDueIn latency (arrivals latency s)).bind outcomeAlone = requested (nextInput s) := by
  unfold arrivals
  split <;> simp [requestDueIn, requested, *]

/-- The first input to come is the one of this instant. -/
theorem head_requested (s : State) : s.inputs[0]?.bind requested = requested (nextInput s) := by
  rw [nextInput_eq, List.head?_eq_getElem?]
  cases s.inputs[0]? <;> rfl

/-- An instant takes the request that arrives from the inputs into flight, where its promise stays the same. -/
theorem promised_eq_pending {latency : Nat} {s : State} (h : Scheduled latency s) (hr : nextInput s ≠ .reset) (k : Nat) :
    promised latency s k =
      if k ≤ latency then (requestDueIn k (pending latency s)).bind outcomeAlone
      else s.inputs[k - latency]?.bind requested := by
  rw [promised, pending_of_not_reset latency hr, requestDueIn_append]
  rcases lt_trichotomy k latency with hk | rfl | hk
  · have hnone : requestDueIn k (arrivals latency s) = none :=
      requestDueIn_eq_none fun f hf => (remaining_of_mem_arrivals hf).trans_ne hk.ne'
    rw [if_pos hk, if_pos hk.le, hnone, Option.or_none]
  · have hnone : requestDueIn k s.inFlight = none := requestDueIn_eq_none fun f hf => (h.2 f hf).ne
    rw [if_neg (lt_irrefl k), if_pos le_rfl, hnone, Option.none_or, requestDueIn_arrivals, Nat.sub_self, head_requested]
  · rw [if_neg hk.not_gt, if_neg hk.not_ge]

/-- An instant presents what was promised for it. -/
theorem promised_zero {latency : Nat} {s : State} (h : Scheduled latency s) (hr : nextInput s ≠ .reset) :
    promised latency s 0 = (afterInstant latency s).presented := by
  rw [promised_eq_pending h hr, if_pos (Nat.zero_le _), requestDueIn_zero (pending_dueInOrder h), afterInstant]

/-- An instant keeps every later promise. -/
theorem promised_succ {latency : Nat} {s : State} (h : Scheduled latency s) (hr : nextInput s ≠ .reset) (k : Nat) :
    promised latency s (k + 1) = promised latency (afterInstant latency s) k := by
  have hne := fun f => remaining_ne_zero_of_mem_waiting (pending_dueInOrder h) (f := f)
  rw [promised_eq_pending h hr, promised, afterInstant, requestDueIn_age k hne, requestDueIn_waiting, List.getElem?_tail]
  by_cases hk : k < latency
  · rw [if_pos hk, if_pos (by omega)]
  · rw [if_neg hk, if_neg (by omega), Nat.sub_add_comm (by omega)]

/-- No reset among the next `k + 1` inputs: none now, and none among the `k` after it. -/
theorem not_reset_of_not_mem_take {s : State} {k : Nat} (h : .reset ∉ s.inputs.take (k + 1)) :
    nextInput s ≠ .reset ∧ .reset ∉ s.inputs.tail.take k := by
  rw [nextInput_eq]
  cases hin : s.inputs with
  | nil => simp
  | cons e es =>
    rw [hin, List.take_succ_cons, List.mem_cons, not_or] at h
    exact ⟨Ne.symm h.1, h.2⟩

/-- From a scheduled state every output up to the first reset is the one promised. -/
theorem outputs_eq_promised {latency : Nat} {s : State} (h : Scheduled latency s) {k n : Nat} (hk : k < n)
    (hr : .reset ∉ s.inputs.take (k + 1)) : (outputs latency n s)[k]? = some (promised latency s k) := by
  obtain ⟨n, rfl⟩ : ∃ m, n = m + 1 := ⟨n - 1, by omega⟩
  rw [outputs_succ]
  obtain ⟨hnow, hlater⟩ := not_reset_of_not_mem_take hr
  induction k generalizing n s with
  | zero => rw [List.getElem?_cons_zero, promised_zero h hnow]
  | succ k ih =>
    obtain ⟨n, rfl⟩ : ∃ m, n = m + 1 := ⟨n - 1, by omega⟩
    obtain ⟨hnow', hlater'⟩ := not_reset_of_not_mem_take (s := afterInstant latency s) hlater
    rw [List.getElem?_cons_succ, outputs_succ, promised_succ h hnow]
    exact ih (afterInstant_scheduled h) hlater n (by omega) hnow' hlater'

/-- Settles O51: the request's own count of instants left names it, and its promise is kept. -/
theorem everyRequestInFlightIsAnswered : Obligations.EveryRequestInFlightIsAnswered := by
  intro latency s f h hf hr
  rw [outputs_eq_promised h (Nat.lt_succ_self _) hr, promised, if_pos (h.2 f hf), requestDueIn_of_mem h.1 hf,
    Option.bind_some]

/-- After reset the promises are none for a latency, then the responses the inputs ask for. -/
theorem promised_reset (latency : Nat) (ins : List HostInput) {k : Nat} (hk : k < ins.length + latency) :
    some (promised latency { State.reset with inputs := ins } k) =
      (List.replicate latency none ++ ins.map requested)[k]? := by
  rw [promised, List.getElem?_append, List.length_replicate]
  split
  · rw [List.getElem?_replicate_of_lt ‹_›]
    rfl
  · have hlt : k - latency < ins.length := by omega
    rw [List.getElem?_map, List.getElem?_eq_getElem hlt]
    rfl

/-- Settles O52: every output is the one promised, and after reset the promises are the delayed responses. -/
theorem responsesFollowRequestsInOrder : Obligations.ResponsesFollowRequestsInOrder := by
  intro latency ins hr
  refine List.ext_getElem? fun k => ?_
  by_cases hk : k < ins.length + latency
  · have hscheduled : Scheduled latency { State.reset with inputs := ins } :=
      scheduled_of_inFlight_nil latency rfl
    rw [outputs_eq_promised hscheduled hk (mt List.mem_of_mem_take hr), promised_reset latency ins hk]
  · rw [List.getElem?_eq_none (by simpa using hk), List.getElem?_eq_none (by simp; omega)]

/-! #### The responses owed to the requests accepted -/

/-- The responses that requests in flight get, in their order. -/
def owedTo (fs : List InFlight) : List Response := fs.filterMap fun f => outcomeAlone f.req

/-- The responses still owed: to the requests in flight and then to those to come, in the order of acceptance
(70_reset_and_hazards.md R95). -/
def owed (s : State) : List Response := owedTo s.inFlight ++ s.inputs.filterMap requested

theorem owedTo_append (fs gs : List InFlight) : owedTo (fs ++ gs) = owedTo fs ++ owedTo gs := List.filterMap_append

/-- Aging changes no request, so no response. -/
theorem owedTo_age (fs : List InFlight) : owedTo (age fs) = owedTo fs := List.filterMap_map

/-- The first element of a list gives what `f` makes of it, if anything. -/
theorem filterMap_cons_eq_toList_append {α β : Type} (f : α → Option β) (x : α) (xs : List α) :
    (x :: xs).filterMap f = (f x).toList ++ xs.filterMap f := by
  rw [List.filterMap_cons]
  cases f x <;> rfl

/-- The responses owed are that of the due request and those of the requests left waiting. -/
theorem owedTo_eq_due_append (fs : List InFlight) :
    owedTo fs = ((dueHead fs).bind outcomeAlone).toList ++ owedTo (waiting fs) := by
  cases fs with
  | nil => rfl
  | cons f fs =>
    by_cases hf : f.remaining = 0
    · rw [dueHead_cons_due hf, waiting_cons_due hf, owedTo, filterMap_cons_eq_toList_append, Option.bind_some, owedTo]
    · rw [dueHead_cons_waiting hf, waiting_cons_waiting hf]
      rfl

/-- What arrives is owed the response that the input asks for. -/
theorem owedTo_arrivals (latency : Nat) (s : State) : owedTo (arrivals latency s) = (requested (nextInput s)).toList := by
  unfold arrivals
  split
  case h_1 w hw => rw [hw, owedTo, filterMap_cons_eq_toList_append, List.filterMap_nil, List.append_nil, requested]
  all_goals
    rw [‹nextInput s = _›]
    rfl

/-- The inputs to come ask for the response of this instant's input and then for those of the later ones. -/
theorem filterMap_requested_eq (s : State) :
    s.inputs.filterMap requested = (requested (nextInput s)).toList ++ s.inputs.tail.filterMap requested := by
  rw [nextInput_eq]
  cases s.inputs with
  | nil => rfl
  | cons e es => exact filterMap_cons_eq_toList_append requested e es

/-- Without reset an instant presents the first response owed, or none, and the rest stays owed. -/
theorem owed_eq_presented_append (latency : Nat) {s : State} (hr : nextInput s ≠ .reset) :
    owed s = (afterInstant latency s).presented.toList ++ owed (afterInstant latency s) := by
  calc owed s = owedTo (pending latency s) ++ s.inputs.tail.filterMap requested := by
        rw [owed, filterMap_requested_eq, ← owedTo_arrivals latency, ← List.append_assoc, ← owedTo_append,
          ← pending_of_not_reset latency hr]
    _ = (afterInstant latency s).presented.toList ++ owed (afterInstant latency s) := by
        rw [owedTo_eq_due_append, List.append_assoc, owed, afterInstant, owedTo_age]

/-- `n` instants are enough to answer every request in flight and to come. -/
def AllDueWithin (latency n : Nat) (s : State) : Prop :=
  (∀ f ∈ s.inFlight, f.remaining < n) ∧ (s.inputs ≠ [] → s.inputs.length + latency ≤ n)

/-- Within no instants only a machine with no request in flight and none to come is served. -/
theorem owed_eq_nil {latency : Nat} {s : State} (h : AllDueWithin latency 0 s) : owed s = [] := by
  obtain ⟨hflight, hinputs⟩ := h
  have hnone : s.inFlight = [] := List.eq_nil_iff_forall_not_mem.2 fun f hf => Nat.not_lt_zero _ (hflight f hf)
  have hquiet : s.inputs = [] := by
    by_contra hne
    have := hinputs hne
    have := List.length_pos_of_ne_nil hne
    omega
  rw [owed, hnone, hquiet]
  rfl

/-- After one instant one instant less is enough. -/
theorem afterInstant_allDueWithin {latency n : Nat} {s : State} (hs : Scheduled latency s)
    (h : AllDueWithin latency (n + 1) s) : AllDueWithin latency n (afterInstant latency s) := by
  obtain ⟨hflight, hinputs⟩ := h
  constructor
  · intro g hg
    obtain ⟨f, hf, -, hk⟩ := (mem_age _).1 hg
    have hne := remaining_ne_zero_of_mem_waiting (pending_dueInOrder hs) hf
    rcases mem_pending ((waiting_sublist _).subset hf) with hf | hf
    · have := hflight f hf
      omega
    · obtain ⟨w, hw, rfl⟩ := exists_issue_of_mem_arrivals hf
      have := hinputs (List.ne_nil_of_mem hw)
      have := List.length_pos_of_mem hw
      simp only at hk hne
      omega
  · intro hne
    change s.inputs.tail ≠ [] at hne
    have hinputs := hinputs fun hnil => hne (by rw [hnil, List.tail_nil])
    have hpos := List.length_pos_of_ne_nil hne
    change s.inputs.tail.length + latency ≤ n
    rw [List.length_tail] at hpos ⊢
    omega

/-- No reset to come: none now and none later. -/
theorem nextInput_ne_reset {s : State} (h : .reset ∉ s.inputs) : nextInput s ≠ .reset :=
  (not_reset_of_not_mem_take (k := 0) (mt List.mem_of_mem_take h)).1

/-- A run that is long enough presents exactly the responses owed, in their order. -/
theorem outputs_filterMap_eq_owed {latency n : Nat} {s : State} (hs : Scheduled latency s) (hr : .reset ∉ s.inputs)
    (h : AllDueWithin latency n s) : (outputs latency n s).filterMap id = owed s := by
  induction n generalizing s with
  | zero => exact (owed_eq_nil h).symm
  | succ n ih =>
    have hlater : .reset ∉ (afterInstant latency s).inputs := mt List.mem_of_mem_tail hr
    rw [outputs_succ, filterMap_cons_eq_toList_append, owed_eq_presented_append latency (nextInput_ne_reset hr),
      ih (afterInstant_scheduled hs) hlater (afterInstant_allDueWithin hs h), id]

/-- Settles O53: the requests in flight are due within the latency, and each instant presents the first response owed. -/
theorem everyRequestIsAnsweredOnceInOrder : Obligations.EveryRequestIsAnsweredOnceInOrder := by
  intro latency n s hs hr hn
  have hwithin : AllDueWithin latency n s :=
    ⟨fun f hf => (hs.2 f hf).trans_le (by omega), fun _ => hn⟩
  rw [outputs_filterMap_eq_owed hs hr hwithin, List.filterMap_append, List.filterMap_map, List.filterMap_map]
  rfl

end Sys2Proof.Machine

/-! ### Words and texts that give back what they encode (30_encoding.md) -/

namespace Sys2Proof

/-- Decoding the fields of a well-formed instruction gives it back; ill-formed is only a default variant that holds a named
mode value. -/
theorem decodeRequest_encodeRequest {i : Instr} (h : i.wellFormed = true) : decodeRequest (encodeRequest i) = i := by
  cases i
  case muldivDefault m a b c => exact decodeRequest_of_unrecognised (r := ⟨a, b, c, m⟩) (unrecognisedMode_iff.1 h)
  all_goals rfl

/-- Settles O11: packing and unpacking lose no field, and the fields decode to the instruction. -/
theorem decodeOfEncodeIsTheInstruction : Obligations.DecodeOfEncodeIsTheInstruction :=
  fun i h => (decode_pack (encodeRequest i)).trans (decodeRequest_encodeRequest h)

/-- Settles O15: each word is closed, so the decoder is run on it. -/
theorem writtenOutWordsDecode : Obligations.WrittenOutWordsDecode := by
  unfold Obligations.WrittenOutWordsDecode
  decide

end Sys2Proof

namespace Sys2Proof.Machine

open Sys2Proof.Claims

/-- A consumer gets back the outcome that was encoded (30_encoding.md R36). -/
theorem decodeResponse_encodeResponse (r : Response) : decodeResponse (encodeResponse r) = some r := by
  rw [decodeResponse, encodeResponse_status, encodeResponse_yField]
  rcases r with y | kind
  · rfl
  · cases kind <;> rfl

/-- The status 3 is no response (30_encoding.md R42). -/
theorem decodeResponse_of_status_three {w : ResponseWord} (h : w.extractLsb' 64 2 = 3) : decodeResponse w = none := by
  rw [decodeResponse, h]
  rfl

/-- Settles O17: the consumer's decoder is a left inverse of the encoder. -/
theorem responseWordsTellOutcomesApart : Obligations.ResponseWordsTellOutcomesApart := by
  refine ⟨decodeResponse_encodeResponse, fun r r' h => Option.some.inj ?_, fun w => decodeResponse_of_status_three⟩
  rw [← decodeResponse_encodeResponse r, h, decodeResponse_encodeResponse]

/-- An operand printed as a signed decimal reads as itself (30_encoding.md R43). -/
@[simp] theorem operandValue_dec_toInt (v : Word64) : operandValue (.dec v.toInt) = some v := by
  have hrange : -2 ^ 63 ≤ v.toInt ∧ v.toInt < 2 ^ 63 := sval_range64 v
  rw [operandValue, if_pos (by omega), BitVec.ofInt_toInt]

/-- The modes 0 to 7 are printed in the named form (30_encoding.md R43). -/
theorem disassemble_of_named {r : Request} (h : r.mode.toNat < 8) :
    disassemble r = .named ⟨r.mode.toNat, h⟩ (.dec r.a.toInt) (.dec r.b.toInt) (.dec r.c.toInt) := dif_pos h

/-- Every other mode is printed in the raw form (30_encoding.md R43). -/
theorem disassemble_of_unrecognised {r : Request} (h : ¬ r.mode.toNat < 8) :
    disassemble r = .raw r.mode.toNat (.dec r.a.toInt) (.dec r.b.toInt) (.dec r.c.toInt) := dif_neg h

/-- The raw form of a named mode's value has that mode's value (30_encoding.md R43). -/
theorem modeValue_raw {n : Nat} (h : n < 2 ^ 32) (a b c : AsmOperand) :
    modeValue (.raw n a b c) = some (BitVec.ofNat 32 n) := if_pos h

/-- What a line stands for depends on its mode value and its operands alone. -/
theorem assemble_congr {l l' : AsmLine} (hmode : modeValue l = modeValue l') (hoperands : lineOperands l = lineOperands l') :
    assemble l = assemble l' := by
  rw [assemble, assemble, hmode, hoperands]

/-- The raw form of a mode from 0 to 7 is the request of the named form (30_encoding.md R43). -/
theorem assemble_raw_eq_named (m : Fin 8) (a b c : AsmOperand) : assemble (.raw m.val a b c) = assemble (.named m a b c) :=
  assemble_congr (modeValue_raw (by omega) a b c) rfl

/-- A line with the request's mode value and its operands as signed decimals stands for the request. -/
theorem assemble_of_fields {l : AsmLine} {r : Request} (hmode : modeValue l = some r.mode)
    (hoperands : lineOperands l = (.dec r.a.toInt, .dec r.b.toInt, .dec r.c.toInt)) : assemble l = some r := by
  simp only [assemble, hmode, hoperands, operandValue_dec_toInt]

/-- A disassembled request assembles to itself. -/
theorem assemble_disassemble (r : Request) : assemble (disassemble r) = some r := by
  have hmode : BitVec.ofNat 32 r.mode.toNat = r.mode := by rw [BitVec.ofNat_toNat, BitVec.setWidth_eq]
  by_cases h : r.mode.toNat < 8
  · rw [disassemble_of_named h]
    exact assemble_of_fields (congrArg some hmode) rfl
  · rw [disassemble_of_unrecognised h]
    exact assemble_of_fields ((modeValue_raw r.mode.isLt _ _ _).trans (congrArg some hmode)) rfl

/-- Settles O18: both forms keep the mode value and the operands, and the form is chosen by the mode value. -/
theorem assemblerRoundTrips : Obligations.AssemblerRoundTrips := by
  refine ⟨assemble_disassemble, assemble_raw_eq_named, fun r => ⟨?_, fun h => ?_⟩, fun r h => ?_⟩
  · rintro ⟨m, -, -, -, -, hm⟩
    exact hm ▸ m.isLt
  · exact ⟨_, _, _, _, disassemble_of_named h, rfl⟩
  · exact ⟨_, _, _, disassemble_of_unrecognised (not_lt.2 h)⟩

/-- Settles O20: sign extension keeps the integer, and holding integers in 128 bits respects products. -/
theorem multiplierIsSignedBySigned : Obligations.MultiplierIsSignedBySigned :=
  fun a b => BitVec.ofInt_mul a.toInt b.toInt

/-! ### The half modes of a positive divisor (43_rounding.md section 3) -/

/-- The truncated quotient misses the dividend by the remainder, which is on the dividend's side of zero and smaller than
a positive divisor (42_divider.md R58); the quotients next to it miss it by the divisor more or less. -/
theorem remainder_range_of_pos_divisor {x y : Int} (hy : 0 < y) (hr : x.tmod y ≠ 0) :
    x = x.tdiv y * y + x.tmod y ∧
      (0 ≤ x → 0 < x.tmod y ∧ x.tmod y < y ∧ 0 ≤ x.tdiv y * y) ∧
      (¬ 0 ≤ x → -y < x.tmod y ∧ x.tmod y < 0 ∧ x.tdiv y * y ≤ 0) ∧
      (x.tdiv y + 1) * y = x.tdiv y * y + y ∧ (x.tdiv y - 1) * y = x.tdiv y * y - y := by
  rw [Int.add_mul, Int.sub_mul, Int.one_mul]
  have hsum := Int.tdiv_mul_add_tmod x y
  have hlt := natAbs_tmod_lt x hy.ne'
  have hsign := tmod_neg_iff hr
  have hle : (x.tmod y).natAbs ≤ x.natAbs := by
    rw [Int.natAbs_tmod]
    exact Nat.mod_le _ _
  omega

section PositiveDivisor

variable {a b c : Word64}

/-- For a positive even divisor HALF_UP selects a nearest integer, a tie going away from zero (43_rounding.md R70). -/
theorem halfUp_nearest (h : Inexact a b c) (hc : 0 < c.toInt) (heven : c.toInt % 2 = 0) :
    ∃ q, selected (.muldivHalfUp a b c) = .ok q ∧ 2 * (q * c.toInt - prod a b).natAbs ≤ c.toInt.natAbs ∧
      (2 * (q * c.toInt - prod a b).natAbs = c.toInt.natAbs → (prod a b).natAbs < (q * c.toInt).natAbs) := by
  refine ⟨_, selected_muldivHalfUp h, ?_⟩
  obtain ⟨hsum, hpos, hneg, hnext, hprev⟩ := remainder_range_of_pos_divisor hc h.2
  split_ifs with hp hmove hmove <;> omega

/-- For a positive even divisor HALF_DOWN selects a nearest integer, a tie going toward zero (43_rounding.md R71). -/
theorem halfDown_nearest_of_even (h : Inexact a b c) (hc : 0 < c.toInt) (heven : c.toInt % 2 = 0) :
    ∃ q, selected (.muldivHalfDown a b c) = .ok q ∧ 2 * (q * c.toInt - prod a b).natAbs ≤ c.toInt.natAbs ∧
      (2 * (q * c.toInt - prod a b).natAbs = c.toInt.natAbs → (q * c.toInt).natAbs < (prod a b).natAbs) := by
  refine ⟨_, selected_muldivHalfDown h, ?_⟩
  obtain ⟨hsum, hpos, hneg, hnext, hprev⟩ := remainder_range_of_pos_divisor hc h.2
  split_ifs with hp hmove hmove <;> omega

/-- For a positive odd divisor HALF_DOWN selects the nearest integer: the threshold is half the divisor less one
half, and remainders are whole (43_rounding.md R71). -/
theorem halfDown_nearest_of_odd (h : Inexact a b c) (hc : 0 < c.toInt) (hodd : c.toInt % 2 = 1) :
    ∃ q, selected (.muldivHalfDown a b c) = .ok q ∧ 2 * (q * c.toInt - prod a b).natAbs < c.toInt.natAbs := by
  refine ⟨_, selected_muldivHalfDown h, ?_⟩
  obtain ⟨hsum, hpos, hneg, hnext, hprev⟩ := remainder_range_of_pos_divisor hc h.2
  split_ifs with hp hmove hmove <;> omega

/-- For a positive even divisor HALF_EVEN selects a nearest integer, a tie going to the even one (43_rounding.md R72): a
remainder at the threshold is as far from the truncated quotient as from the next. -/
theorem halfEven_nearest (h : Inexact a b c) (hc : 0 < c.toInt) (heven : c.toInt % 2 = 0) :
    ∃ q, selected (.muldivHalfEven a b c) = .ok q ∧ 2 * (q * c.toInt - prod a b).natAbs ≤ c.toInt.natAbs ∧
      (2 * (q * c.toInt - prod a b).natAbs = c.toInt.natAbs → q % 2 = 0) := by
  refine ⟨_, selected_muldivHalfEven h, ?_⟩
  obtain ⟨hsum, hpos, hneg, hnext, hprev⟩ := remainder_range_of_pos_divisor hc h.2
  rcases Int.emod_two_eq_zero_or_one ((prod a b).tdiv c.toInt) with hq | hq
  · rw [hq, Int.add_zero, Int.sub_zero]
    split_ifs with hp hbeyond hbelow hbeyond hbelow <;> omega
  · rw [hq]
    split_ifs with hp hbeyond hbelow hbeyond hbelow <;> omega

end PositiveDivisor

/-- Settles O31: the truncated quotient misses the product by the remainder, the next one by the rest of the divisor, and
the threshold tells which is less. -/
theorem halfModesRoundToNearest : Obligations.HalfModesRoundToNearest :=
  fun _ _ _ h hc => ⟨halfUp_nearest h hc, halfDown_nearest_of_even h hc, halfEven_nearest h hc,
    halfDown_nearest_of_odd h hc⟩

end Sys2Proof.Machine
